-- ==== Sys2Proof/Word.lean ====
section
/-! DEFINITION. The words of the request and response ports of FPEMU CORE. -/

namespace Sys2Proof

/-- A port word: `CMD`, `X`, `Y` and `RESULT` are 32 bits each (10_state.md R28, R29). -/
abbrev Word := BitVec 32

/-- One character of `TEXT`, an ASCII code (00_scope.md R13). -/
abbrev Byte := BitVec 8

end Sys2Proof
end

