-- ==== Sys2Proof/Config.lean ====
section
/-! DEFINITION. The types of the spec's parameters: what a format of the binary floating engine is given by, and the four
named parameters that the source leaves open (00_scope.md R7, R9). Their values stand in Machine/Format.lean. -/

namespace Sys2Proof

/-- A format of the generic binary floating engine BF(e, m): the exponent-field width and the mantissa-field width
(00_scope.md R7). -/
structure BF where
  e : Nat
  m : Nat
  deriving DecidableEq, Repr

/-- `FX_TIE`: how the fixed-point renderer rounds a fraction exactly halfway between two 3-digit values
(00_scope.md R9, 41_fixed_render.md R132). -/
inductive FxTie where
  | up
  | even
  | down
  deriving DecidableEq, Repr

/-- `DIV_INF_INF`: what a floating division of infinity by infinity returns (00_scope.md R9, 44_float_muldiv.md R222). -/
inductive DivInfInf where
  | nan
  | inf
  | zero
  deriving DecidableEq, Repr

/-- The four named parameters that "the model takes as arguments" (00_scope.md R9). They are fixed for one machine:
no request reads or writes them as data, and no step changes them. -/
structure Params where
  /-- `QNAN_H`, the canonical NaN of half precision. -/
  qnanH : BitVec 16
  /-- `QNAN_S`, the canonical NaN of single precision. -/
  qnanS : BitVec 32
  /-- `FX_TIE`. -/
  fxTie : FxTie
  /-- `DIV_INF_INF`. -/
  divInfInf : DivInfInf
  deriving DecidableEq, Repr

end Sys2Proof
end

