-- ==== Sys2Proof/Machine/Bits.lean ====
section
/-! DEFINITION. The bit-field notation of 00_scope.md R10 to R12 on natural numbers. -/

namespace Sys2Proof

/-- `v[hi:lo]`, the field of bits `hi` down to `lo`, as a natural number (00_scope.md R10). -/
def slice (v hi lo : Nat) : Nat := v / 2 ^ lo % 2 ^ (hi - lo + 1)

/-- `v[i] = 1` (00_scope.md R10). -/
def bitSet (v i : Nat) : Bool := decide (v / 2 ^ i % 2 = 1)

/-- `msb(M)`: for `M > 0` the index of the highest set bit (00_scope.md R12). -/
def msb (M : Nat) : Nat := Nat.log2 M

/-- `M << k` for `k ≥ 0` and `M >> (-k)` for `k < 0`, both on unbounded naturals (00_scope.md R11). -/
def shiftBy (M : Nat) (k : Int) : Nat :=
  if 0 ≤ k then M * 2 ^ k.toNat else M / 2 ^ (-k).toNat

end Sys2Proof
end

