-- ==== Sys2Proof/Machine/Fixed.lean ====
section
/-! DEFINITION. The arithmetic of the fixed-point unit FX on `n`-bit patterns, `n = a + b` (40_fixed_arith.md section 1).
All intermediate values are unbounded integers (00_scope.md R11). -/

namespace Sys2Proof

/-- `normalize(raw) = raw mod 2^n` for any integer (40_fixed_arith.md R100). -/
def fxNormalize (n : Nat) (raw : Int) : Nat := (raw % 2 ^ n).toNat

/-- `has_sign(v)`: bit `n-1` (R101). -/
def fxHasSign (n v : Nat) : Bool := bitSet v (n - 1)

/-- `negate(v)` (R102). -/
def fxNegate (n v : Nat) : Nat := fxNormalize n (2 ^ n - v)

/-- `signmag(v)`: the sign and the unsigned magnitude (R103). -/
def fxSignmag (n v : Nat) : Bool × Nat :=
  if fxHasSign n v then (true, fxNegate n v) else (false, v)

/-- `apply_sign(s, p)` (R104). -/
def fxApplySign (n : Nat) (s : Bool) (p : Nat) : Nat :=
  if s then fxNormalize n (-(p : Int)) else fxNormalize n p

/-- `fx_add(x, y)` (R105). -/
def fxAdd (n x y : Nat) : Nat := fxNormalize n ((x : Int) + y)

/-- `fx_sub(x, y)` (R106). -/
def fxSub (n x y : Nat) : Nat := fxNormalize n ((x : Int) - y)

/-- `fx_mul(x, y)` in `Q(a,b)` (R107). -/
def fxMul (a b x y : Nat) : Nat :=
  let (sx, mx) := fxSignmag (a + b) x
  let (sy, my) := fxSignmag (a + b) y
  fxApplySign (a + b) (sx != sy) (mx * my / 2 ^ b)

/-- `fx_div(x, y)` in `Q(a,b)`, for `y ≠ 0` (R108). -/
def fxDiv (a b x y : Nat) : Nat :=
  let (sx, mx) := fxSignmag (a + b) x
  let (sy, my) := fxSignmag (a + b) y
  fxApplySign (a + b) (sx != sy) (mx * 2 ^ b / my)

end Sys2Proof
end

