-- ==== Sys2Proof/Machine/Text.lean ====
section
/-! DEFINITION. Text as ASCII bytes, and the two numeral notations `dec` and `hex_D` (00_scope.md R12, R13). -/

namespace Sys2Proof

/-- The ASCII code of a character (00_scope.md R13). -/
def asciiCode (c : Char) : Byte := BitVec.ofNat 8 c.toNat

/-- A sequence of characters as bytes, in reading order (20_memory.md R41). -/
def ascii (cs : List Char) : List Byte := cs.map asciiCode

/-- The digit of value `d < 16`: `0`-`9`, then `a`-`f` in lower case (00_scope.md R12, R13). -/
def digitByte (d : Nat) : Byte :=
  if d < 10 then BitVec.ofNat 8 (0x30 + d) else BitVec.ofNat 8 (0x61 + (d - 10))

/-- The decimal digits of `k`, at most `fuel` of them. -/
def decimalAux : Nat → Nat → List Byte
  | 0, _ => []
  | fuel + 1, k => if k < 10 then [digitByte k] else decimalAux fuel (k / 10) ++ [digitByte (k % 10)]

/-- `dec(k)`: the decimal digits of `k` with no leading zeros, `0` for 0 (00_scope.md R12). A number has at most as
many decimal as binary digits, so the fuel is enough. -/
def dec (k : Nat) : List Byte := decimalAux (Nat.log2 k + 1) k

/-- `hex_D(k)`: exactly `D` lowercase hexadecimal digits of `k < 16^D`, padded with zeros on the left
(00_scope.md R12). -/
def hexDigitsOf : Nat → Nat → List Byte
  | 0, _ => []
  | D + 1, k => hexDigitsOf D (k / 16) ++ [digitByte (k % 16)]

end Sys2Proof
end

