-- ==== Sys2Proof/Machine/FixedRender.lean ====
section
/-! DEFINITION. The decimal rendering of the fixed-point unit FX (41_fixed_render.md). -/

namespace Sys2Proof

/-- Where a value exactly halfway above the integer `q` goes (41_fixed_render.md R132, parameter `FX_TIE`). -/
def tieTo (t : FxTie) (q : Nat) : Nat :=
  match t with
  | .up => q + 1
  | .even => if q % 2 = 0 then q else q + 1
  | .down => q

/-- `num / 2^b` rounded to the nearest integer, a tie by `FX_TIE` (R132). -/
def roundScaled (t : FxTie) (num b : Nat) : Nat :=
  let q := num / 2 ^ b
  let r := num % 2 ^ b
  if 2 * r < 2 ^ b then q
  else if 2 ^ b < 2 * r then q + 1
  else tieTo t q

/-- The integer part and the three-digit fraction of a magnitude, the carry out of the fraction included
(R131, R132, R133). -/
def fxParts (t : FxTie) (b mag : Nat) : Nat × Nat :=
  let d := roundScaled t (mag % 2 ^ b * 1000) b
  if d = 1000 then (mag / 2 ^ b + 1, 0) else (mag / 2 ^ b, d)

/-- The hundreds, tens and units digits of `d < 1000` (R135). -/
def threeDigits (d : Nat) : List Byte :=
  [digitByte (d / 100), digitByte (d / 10 % 10), digitByte (d % 10)]

/-- `fx_render(v)`: the minus sign when a rendered digit is not zero, the integer part, a point, three digits
(R130, R134, R136). -/
def fxRender (t : FxTie) (a b v : Nat) : List Byte :=
  let (s, mag) := fxSignmag (a + b) v
  let (ip, d) := fxParts t b mag
  (if s && (ip != 0 || d != 0) then ascii ['-'] else []) ++ dec ip ++ ascii ['.'] ++ threeDigits d

end Sys2Proof
end

