-- ==== Sys2Proof/Machine/Format.lean ====
section
/-! DEFINITION. The derived constants of a floating format, the two formats, and the default values of the named
parameters (00_scope.md R7, R8, R9). -/

namespace Sys2Proof

/-- `W`, the width of a value (00_scope.md R7). -/
def BF.width (f : BF) : Nat := 1 + f.e + f.m

/-- `bias` (00_scope.md R7). -/
def BF.bias (f : BF) : Nat := 2 ^ (f.e - 1) - 1

/-- `EXPMAX`, the all-ones exponent field (00_scope.md R7). -/
def BF.expMax (f : BF) : Nat := 2 ^ f.e - 1

/-- `emin`, the minimum normal exponent (00_scope.md R7). -/
def BF.emin (f : BF) : Int := 1 - (f.bias : Int)

/-- `emax`, the largest true exponent of a normal value (00_scope.md R7). -/
def BF.emax (f : BF) : Int := f.bias

/-- `HEXSHIFT` (00_scope.md R7). -/
def BF.hexShift (f : BF) : Nat := 4 - f.m % 4

/-- `HEXDIGITS` (00_scope.md R7). -/
def BF.hexDigits (f : BF) : Nat := (f.m + f.hexShift) / 4

/-- The unit H is BF(5, 10) (00_scope.md R8). -/
def half : BF := { e := 5, m := 10 }

/-- The unit S is BF(8, 23) (00_scope.md R8). -/
def single : BF := { e := 8, m := 23 }

/-- The spec's defaults of the four parameters (00_scope.md R9; log entries 2, 3, 4; unsafe where a claim leans on
one of them). -/
def defaultParams : Params :=
  { qnanH := 0x7E00#16, qnanS := 0x7FC00000#32, fxTie := .up, divInfInf := .nan }

end Sys2Proof
end

