-- ==== Sys2Proof/Machine/FloatCommon.lean ====
section
/-! DEFINITION. What the four floating operations and the renderer share: fields, classes, sign handling, unpacking, the
internal order and the renormaliser, for any format BF(e, m) (42_float_common.md). A value is a `W`-bit pattern, kept as a
natural number (00_scope.md R10). -/

namespace Sys2Proof

/-- `sign(x)`, set for a negative pattern (42_float_common.md R150). -/
def BF.sign (f : BF) (x : Nat) : Bool := bitSet x (f.width - 1)

/-- `expf(x)`, the exponent field (R150). -/
def BF.expf (f : BF) (x : Nat) : Nat := slice x (f.width - 2) f.m

/-- `frac(x)`, the mantissa field (R150). -/
def BF.frac (f : BF) (x : Nat) : Nat := slice x (f.m - 1) 0

/-- The five classes of a value (R156). -/
inductive FloatClass where
  | zero
  | denormal
  | normal
  | infinity
  | nan
  deriving DecidableEq, Repr

/-- `classify(x)` (R156). -/
def BF.classify (f : BF) (x : Nat) : FloatClass :=
  if f.expf x = 0 then
    if f.frac x = 0 then .zero else .denormal
  else if f.expf x = f.expMax then
    if f.frac x = 0 then .infinity else .nan
  else .normal

/-- `is_zero(x)` (R151). -/
def BF.isZero (f : BF) (x : Nat) : Bool := f.expf x == 0 && f.frac x == 0

/-- `is_denormal(x)` (R152). -/
def BF.isDenormal (f : BF) (x : Nat) : Bool := f.expf x == 0 && f.frac x != 0

/-- `is_normal(x)` (R153). -/
def BF.isNormal (f : BF) (x : Nat) : Bool := decide (0 < f.expf x) && decide (f.expf x < f.expMax)

/-- `is_infinity(x)` (R154). -/
def BF.isInfinity (f : BF) (x : Nat) : Bool := f.expf x == f.expMax && f.frac x == 0

/-- `is_nan(x)` (R155). -/
def BF.isNan (f : BF) (x : Nat) : Bool := f.expf x == f.expMax && f.frac x != 0

/-- `INF`, the positive infinity (R154). -/
def BF.inf (f : BF) : Nat := f.expMax * 2 ^ f.m

/-- `negate(x)`: the sign bit flipped (R158). -/
def BF.negate (f : BF) (x : Nat) : Nat := x ^^^ 2 ^ (f.width - 1)

/-- `abs(x)`: the sign bit cleared (R159). -/
def BF.abs (f : BF) (x : Nat) : Nat := x % 2 ^ (f.width - 1)

/-- `with_sign(s, g)` for a magnitude pattern `g` (R160). -/
def BF.withSign (f : BF) (s : Bool) (g : Nat) : Nat := if s then 2 ^ (f.width - 1) + g else g

/-- `unpack(x)` for a finite `x`: the true exponent and the mantissa with its implicit bit (R161). -/
def BF.unpack (f : BF) (x : Nat) : Int × Nat :=
  if f.expf x = 0 then (f.emin, f.frac x) else ((f.expf x : Int) - f.bias, 2 ^ f.m + f.frac x)

/-- `less_than(x, y)` for finite `x`, `y` (R163). -/
def BF.lessThan (f : BF) (x y : Nat) : Bool :=
  if f.isZero x && f.isZero y then false
  else if f.sign x != f.sign y then f.sign x
  else if f.sign x then decide (f.abs y < f.abs x)
  else decide (f.abs x < f.abs y)

/-- `construct(exp, M)`: the magnitude pattern of `M * 2^(exp - m)`, truncated, with overflow to infinity and gradual
underflow (R164 to R172). The two fields of a normal result do not overlap, so their sum is the bitwise or of R168. -/
def BF.construct (f : BF) (exp : Int) (M : Nat) : Nat :=
  if M = 0 then 0
  else
    let shift : Int := (f.m : Int) - msb M
    let en : Int := exp - shift
    if f.emax < en then f.inf
    else if f.emin ≤ en then (en + f.bias).toNat * 2 ^ f.m + (shiftBy M shift - 2 ^ f.m)
    else shiftBy M (exp - f.emin)

end Sys2Proof
end

