-- ==== Sys2Proof/Machine/State.lean ====
section
/-! DEFINITION. The two records that cross the boundary of FPEMU CORE, the state of a run, and the reasons a step can stop.
CORE itself holds no state between requests (10_state.md R20 to R27): State is the run's side of the boundary, a finite
list of requests mapped to a list of responses (70_reset_and_hazards.md R307), with the spec's named parameters beside it
(00_scope.md R9). There is no register, no program counter, no flag and no memory to hold. -/

namespace Sys2Proof.Machine

/-- `REQ = (CMD, X, Y)` (10_state.md R28). -/
structure Request where
  /-- `CMD`, the command word. -/
  cmd : Word
  /-- `X`, the first or only operand. -/
  x : Word
  /-- `Y`, the second operand; not read by identity operations (30_encoding.md R71). -/
  y : Word
  deriving DecidableEq, Repr

/-- The two failure kinds (60_exceptions.md R270). Both are responses: neither stops CORE. -/
inductive Failure where
  /-- `DIV_BY_ZERO`, raised by `FX.DIV` alone (R271). -/
  | divByZero
  /-- `FORMAT_OVERFLOW`, raised by every FX operation with `a + b > 32` (R272). -/
  | formatOverflow
  deriving DecidableEq, Repr

/-- A response: `ok` carries `RESULT`, `RCLASS` and the `TLEN` meaningful bytes of `TEXT`; a failure carries its
`STATUS` alone, and the other four fields have no value (10_state.md R29, 60_exceptions.md R276, log entry 6). -/
inductive Response where
  | ok (result : Word) (rclass : BitVec 3) (text : List Byte)
  | fail (f : Failure)
  deriving DecidableEq, Repr

/-- The state of a run. -/
structure State where
  /-- The named parameters, fixed for the machine (00_scope.md R9; the model's own field, log entries 2, 3, 4). -/
  params : Params
  /-- The requests presented and not yet taken, oldest first (70_reset_and_hazards.md R307). -/
  requests : List Request
  /-- The responses given, oldest first (70_reset_and_hazards.md R307). -/
  responses : List Response
  deriving DecidableEq, Repr

/-- Why a step can end without a next state and without a refused request. CORE has no faults of its own
(93_implementation_defined.md section 1). -/
inductive Fault where
  /-- Raised by every step taken when no request is presented: the run has ended (R307, R19). Safe: nothing that
  CORE does is stopped by it (log entry 5). -/
  | noRequest
  deriving DecidableEq, Repr

/-- Why a request has no meaning (00_scope.md R12 `refuse`, 30_encoding.md R77). A refusal ends the run: log entry 12. -/
inductive Refusal where
  /-- Raised by `exec` for an operation without a meaning; no operation of this model is one. Safe. -/
  | notModelled (mnemonic : String)
  /-- Raised by `step`, `RESERVED_BITS`: a reserved bit of `CMD` set, or `A` or `B` set for H or S (R67, R66; U2, U5).
  Safe: the spec gives the request no meaning. -/
  | reservedBits
  /-- Raised by `step`, `RESERVED_FMT`: `FMT = 3` (R63; U3). Safe: the spec gives the request no meaning. -/
  | reservedFmt
  /-- Raised by `step`, `RESERVED_OP`: `OP` in `5..7` (R64; U3). Safe: the spec gives the request no meaning. -/
  | reservedOp
  /-- Raised by `step`, `RM`: `RM ≠ 0` (R65; U1). Safe: the spec gives the request no meaning. -/
  | roundMode
  /-- Raised by the FX operations, `AB_RANGE`: `a + b ≤ 32` and `a = 0` or `b = 0` (R72 step 2; U6). Safe: the spec
  gives the request no meaning. -/
  | abRange
  /-- Raised by the H operations, `WIDE_OPERAND`: an operand that is read is `2^16` or more (R69; U4). Safe: the spec
  gives the request no meaning. -/
  | wideOperand
  deriving DecidableEq, Repr

/-- Right after reset: nothing to initialise, no request presented, no response given (70_reset_and_hazards.md R300,
R301; log entry 1), the parameters at the spec's defaults. -/
def State.reset : State :=
  { params := Sys2Proof.defaultParams, requests := [], responses := [] }

end Sys2Proof.Machine
end

