-- ==== Sys2Proof/Machine/Flags.lean ====
section
/-! DEFINITION. What a response says of itself. CORE has no flags (10_state.md R23, 42_float_common.md R175); the only
codes are `STATUS` and `RCLASS` of one response, and they are not sticky (30_encoding.md R73 to R76). -/

namespace Sys2Proof.Machine

/-- The `RCLASS` code of a class (30_encoding.md R75, 42_float_common.md R156). -/
def classCode : FloatClass → BitVec 3
  | .zero => 0#3
  | .denormal => 1#3
  | .normal => 2#3
  | .infinity => 3#3
  | .nan => 4#3

/-- `STATUS` (30_encoding.md R73). -/
def Response.status : Response → BitVec 2
  | .ok _ _ _ => 0#2
  | .fail .divByZero => 1#2
  | .fail .formatOverflow => 2#2

/-- `RESULT`, without a value in a failed response (10_state.md R29, 30_encoding.md R74). -/
def Response.result : Response → Option Word
  | .ok r _ _ => some r
  | .fail _ => none

/-- `RCLASS`, without a value in a failed response (30_encoding.md R75). -/
def Response.rclass : Response → Option (BitVec 3)
  | .ok _ c _ => some c
  | .fail _ => none

/-- `TEXT[0 .. TLEN-1]`, without a value in a failed response (30_encoding.md R76). -/
def Response.text : Response → Option (List Byte)
  | .ok _ _ t => some t
  | .fail _ => none

/-- `TLEN`, five bits wide, without a value in a failed response (30_encoding.md R76). -/
def Response.tlen : Response → Option (BitVec 5)
  | .ok _ _ t => some (BitVec.ofNat 5 t.length)
  | .fail _ => none

end Sys2Proof.Machine
end

