-- ==== Sys2Proof/Machine/FloatRender.lean ====
section
/-! DEFINITION. The hexadecimal rendering of the binary floating engine (45_float_render.md). -/

namespace Sys2Proof

/-- `align_mantissa_for_hex(f)` (45_float_render.md R244). -/
def BF.alignMantissa (f : BF) (fr : Nat) : Nat := fr * 2 ^ f.hexShift

/-- The displayed mantissa and exponent of a denormal value (R246). -/
def BF.denormalParts (f : BF) (v : Nat) : Nat × Int :=
  let sh := f.m - msb (f.frac v)
  (f.frac v * 2 ^ sh % 2 ^ f.m, f.emin - sh)

/-- The displayed mantissa and exponent of a normal value (R245). -/
def BF.normalParts (f : BF) (v : Nat) : Nat × Int :=
  (f.frac v, (f.expf v : Int) - f.bias)

/-- The sign character and the numeral of a displayed exponent (R248). -/
def exponentText (ex : Int) : List Byte :=
  (if 0 ≤ ex then ascii ['+'] else ascii ['-']) ++ dec ex.natAbs

/-- The form of a denormal or normal value after its sign (R247, R248, R251). -/
def BF.finiteText (f : BF) (p : Nat × Int) : List Byte :=
  ascii ['0', 'x', '1', '.'] ++ hexDigitsOf f.hexDigits (f.alignMantissa p.1) ++ ascii ['p'] ++ exponentText p.2

/-- The form of a zero after its sign (R243). -/
def BF.zeroText (f : BF) : List Byte :=
  ascii ['0', 'x', '0', '.'] ++ List.replicate f.hexDigits (digitByte 0) ++ ascii ['p', '+', '0']

/-- `render(v)` (R240 to R251). -/
def BF.render (f : BF) (v : Nat) : List Byte :=
  let neg := if f.sign v then ascii ['-'] else []
  if f.isNan v then ascii ['n', 'a', 'n']
  else if f.isInfinity v then neg ++ ascii ['i', 'n', 'f']
  else if f.isZero v then neg ++ f.zeroText
  else if f.isDenormal v then neg ++ f.finiteText (f.denormalParts v)
  else neg ++ f.finiteText (f.normalParts v)

end Sys2Proof
end

