-- ==== Sys2Proof/Syntax.lean ====
section
/-! DEFINITION. The fifteen operations, one constructor per row of spec/opcode_table.json (30_encoding.md R81). -/

namespace Sys2Proof

/-- An operation as `CMD` gives it. The fixed-point operations carry `a` and `b` of `Q(a,b)`; the operands `X` and `Y`
are port words of the request and no part of `CMD` (30_encoding.md R60, R61, R68). -/
inductive Instr where
  /-- `FX.ID` (40_fixed_arith.md R110). -/
  | fxId (a b : Nat)
  /-- `FX.ADD` (R111). -/
  | fxAdd (a b : Nat)
  /-- `FX.SUB` (R112). -/
  | fxSub (a b : Nat)
  /-- `FX.MUL` (R113). -/
  | fxMul (a b : Nat)
  /-- `FX.DIV` (R114). -/
  | fxDiv (a b : Nat)
  /-- `H.ID` (45_float_render.md R255). -/
  | hId
  /-- `H.ADD` (43_float_addsub.md R200). -/
  | hAdd
  /-- `H.SUB` (R201). -/
  | hSub
  /-- `H.MUL` (44_float_muldiv.md R230). -/
  | hMul
  /-- `H.DIV` (R231). -/
  | hDiv
  /-- `S.ID` (45_float_render.md R256). -/
  | sId
  /-- `S.ADD` (43_float_addsub.md R202). -/
  | sAdd
  /-- `S.SUB` (R203). -/
  | sSub
  /-- `S.MUL` (44_float_muldiv.md R232). -/
  | sMul
  /-- `S.DIV` (R233). -/
  | sDiv
  deriving DecidableEq, Repr

end Sys2Proof
end

