-- ==== Sys2Proof/WellFormed.lean ====
section
/-! DEFINITION. Which terms of Instr a command word can express: `A` and `B` are unsigned 6-bit numbers
(30_encoding.md R61, R66). The legal range of `Q(a,b)` is no part of this check: a pair outside it is expressible and is
answered FormatOverflow or refused when it runs (R72 step 2). -/

namespace Sys2Proof

/-- `a` fits the field `A` and `b` the field `B` (30_encoding.md R66). -/
abbrev FieldsFit (a b : Nat) : Prop := a < 64 ∧ b < 64

/-- The check that an operation can be written as a command word. -/
def Instr.wellFormed : Instr → Bool
  | .fxId a b => decide (FieldsFit a b)
  | .fxAdd a b => decide (FieldsFit a b)
  | .fxSub a b => decide (FieldsFit a b)
  | .fxMul a b => decide (FieldsFit a b)
  | .fxDiv a b => decide (FieldsFit a b)
  | .hId => true
  | .hAdd => true
  | .hSub => true
  | .hMul => true
  | .hDiv => true
  | .sId => true
  | .sAdd => true
  | .sSub => true
  | .sMul => true
  | .sDiv => true

/-- The operation can be written as a command word. -/
abbrev Instr.WellFormed (i : Instr) : Prop := i.wellFormed = true

end Sys2Proof
end

