-- ==== Sys2Proof/Decode.lean ====
section
/-! DEFINITION. The decoder of command words, total and rejecting by name, and the encoder (30_encoding.md R60 to R67,
R72 step 1, R81). -/

namespace Sys2Proof

/-- Why a command word is no operation (30_encoding.md R72 step 1, R77). -/
inductive Reject where
  /-- `RESERVED_BITS`: a reserved bit of `CMD` is set, or `A` or `B` is set for H or S (U2, U5). -/
  | reservedBits
  /-- `RESERVED_FMT`: `FMT = 3` (U3). -/
  | reservedFmt
  /-- `RESERVED_OP`: `OP` is 5, 6 or 7 (U3). -/
  | reservedOp
  /-- `RM`: a round mode other than 0 (U1). -/
  | roundMode
  deriving DecidableEq, Repr

/-- The fields of `CMD` (30_encoding.md R61). -/
structure CmdFields where
  fmt : Nat
  op : Nat
  rm : Nat
  a : Nat
  b : Nat
  /-- `CMD[7]` -/
  rsvd7 : Nat
  /-- `CMD[15:14]` -/
  rsvd14 : Nat
  /-- `CMD[31:22]` -/
  rsvd22 : Nat
  deriving DecidableEq, Repr

/-- `CMD` cut into its fields (30_encoding.md R61). -/
def cmdFields (cmd : Word) : CmdFields where
  fmt := slice cmd.toNat 1 0
  op := slice cmd.toNat 4 2
  rm := slice cmd.toNat 6 5
  a := slice cmd.toNat 13 8
  b := slice cmd.toNat 21 16
  rsvd7 := slice cmd.toNat 7 7
  rsvd14 := slice cmd.toNat 15 14
  rsvd22 := slice cmd.toNat 31 22

/-- The operation of `OP` in the unit FX (30_encoding.md R63, R64, R81). -/
def fxOperation (op a b : Nat) : Except Reject Instr :=
  match op with
  | 0 => .ok (.fxId a b)
  | 1 => .ok (.fxAdd a b)
  | 2 => .ok (.fxSub a b)
  | 3 => .ok (.fxMul a b)
  | 4 => .ok (.fxDiv a b)
  | _ => .error .reservedOp

/-- The operation of `OP` in the unit H (30_encoding.md R63, R64, R81). -/
def hOperation (op : Nat) : Except Reject Instr :=
  match op with
  | 0 => .ok .hId
  | 1 => .ok .hAdd
  | 2 => .ok .hSub
  | 3 => .ok .hMul
  | 4 => .ok .hDiv
  | _ => .error .reservedOp

/-- The operation of `OP` in the unit S (30_encoding.md R63, R64, R81). -/
def sOperation (op : Nat) : Except Reject Instr :=
  match op with
  | 0 => .ok .sId
  | 1 => .ok .sAdd
  | 2 => .ok .sSub
  | 3 => .ok .sMul
  | 4 => .ok .sDiv
  | _ => .error .reservedOp

/-- The operation the fields of a command word give, or the name under which the word is refused; the tests stand in
the order of 30_encoding.md R72 step 1. -/
def decodeFields (f : CmdFields) : Except Reject Instr :=
  if f.rsvd7 ≠ 0 ∨ f.rsvd14 ≠ 0 ∨ f.rsvd22 ≠ 0 then .error .reservedBits
  else if f.fmt = 3 then .error .reservedFmt
  else if 5 ≤ f.op then .error .reservedOp
  else if f.rm ≠ 0 then .error .roundMode
  else if f.fmt ≠ 0 ∧ (f.a ≠ 0 ∨ f.b ≠ 0) then .error .reservedBits
  else if f.fmt = 0 then fxOperation f.op f.a f.b
  else if f.fmt = 1 then hOperation f.op
  else sOperation f.op

/-- The operation a command word gives, or the name under which it is refused (30_encoding.md R60, R72 step 1). -/
def decode (cmd : Word) : Except Reject Instr := decodeFields (cmdFields cmd)

/-- `CMD = FMT | OP << 2 | RM << 5 | A << 8 | B << 16` with `RM = 0`; the fields do not overlap, so the sum is the
bitwise or (30_encoding.md R61, R80). -/
def cmdWord (fmt op a b : Nat) : Word :=
  BitVec.ofNat 32 (fmt + op * 2 ^ 2 + a * 2 ^ 8 + b * 2 ^ 16)

/-- The command word of an operation (30_encoding.md R61, R63, R64, R81). -/
def encode : Instr → Word
  | .fxId a b => cmdWord 0 0 a b
  | .fxAdd a b => cmdWord 0 1 a b
  | .fxSub a b => cmdWord 0 2 a b
  | .fxMul a b => cmdWord 0 3 a b
  | .fxDiv a b => cmdWord 0 4 a b
  | .hId => cmdWord 1 0 0 0
  | .hAdd => cmdWord 1 1 0 0
  | .hSub => cmdWord 1 2 0 0
  | .hMul => cmdWord 1 3 0 0
  | .hDiv => cmdWord 1 4 0 0
  | .sId => cmdWord 2 0 0 0
  | .sAdd => cmdWord 2 1 0 0
  | .sSub => cmdWord 2 2 0 0
  | .sMul => cmdWord 2 3 0 0
  | .sDiv => cmdWord 2 4 0 0

/-- Word `k` (from 0) of a request laid out as one number, the first word in its low bits. -/
def requestWord (v k : Nat) : Word := BitVec.ofNat 32 (v / 2 ^ (32 * k))

/-- The operation the decoder reads from a request whose low `nbits` bits are `w` and whose other bits are 0. The
decoder reads `CMD`, the first word, alone (30_encoding.md R60). -/
def decodeTableWord (nbits w : Nat) : Option Instr :=
  match decode (requestWord (w % 2 ^ nbits) 0) with
  | .ok i => some i
  | .error _ => none

end Sys2Proof
end

