-- ==== Sys2Proof/Machine/Ops.lean ====
section
/-! DEFINITION. The shared operations of a step: taking the request, giving a response, and raising a failure. There is
no memory and no register to operate on (20_memory.md R40, 10_state.md R20). -/

namespace Sys2Proof.Machine

/-- The outcome of a step or of a meaning. -/
abbrev StepOutcome := Host.Outcome State Fault Refusal

/-- The request at the head is answered by `r`: it is taken from the list and the response is given
(10_state.md R19). -/
def respond (r : Response) (s : State) : State :=
  { s with requests := s.requests.tail, responses := s.responses ++ [r] }

/-- Run `k` on the request a step takes, the oldest one presented; without one the run has ended
(70_reset_and_hazards.md R307). -/
def withRequest (s : State) (k : Request → StepOutcome) : StepOutcome :=
  match s.requests with
  | [] => .fault .noRequest
  | req :: _ => k req

/-- TAKING A FAILURE: the step completes with `RESP = fail(code)`; nothing is saved, no mode changes and control goes
nowhere (60_exceptions.md R276). There is no return from a failure and nothing to restore (R277). -/
def raiseFailure (f : Failure) (s : State) : StepOutcome :=
  .next (respond (.fail f) s)

/-- The refusal a rejected command word is refused with (30_encoding.md R72 step 1). -/
def refusalOf : Reject → Refusal
  | .reservedBits => .reservedBits
  | .reservedFmt => .reservedFmt
  | .reservedOp => .reservedOp
  | .roundMode => .roundMode

end Sys2Proof.Machine
end

