-- ==== Sys2Proof/Machine/Operands.lean ====
section
/-! DEFINITION. The operand forms of a request: how the port words `X` and `Y` become the operands of an operation
(30_encoding.md section 2). -/

namespace Sys2Proof.Machine

/-- A fixed-point operand: the port word normalised to `n` bits (30_encoding.md R68). -/
def fxOperand (n : Nat) (w : Word) : Nat := Sys2Proof.fxNormalize n w.toNat

/-- A floating operand: the port word itself (R69, R70). -/
def floatOperand (w : Word) : Nat := w.toNat

/-- The port word is wider than the format. It can hold for H alone; for S every word fits (R69, R70). -/
def wideFor (f : BF) (w : Word) : Bool := decide (2 ^ f.width ≤ w.toNat)

end Sys2Proof.Machine
end

