-- ==== Sys2Proof/Machine/Requests.lean ====
section
/-! DEFINITION. The two shared shapes of a request: what every FX operation does around its arithmetic, and what every H
and S operation does around its own (30_encoding.md R72 steps 2 and 3). -/

namespace Sys2Proof.Machine

/-- The OK response of a fixed-point result `r` in `Q(a,b)`: `RCLASS` is 0 (30_encoding.md R72, R74, R75). -/
def fxResponse (t : FxTie) (a b r : Nat) : Response :=
  .ok (BitVec.ofNat 32 r) 0#3 (Sys2Proof.fxRender t a b r)

/-- The OK response of a floating result `r` (30_encoding.md R72, R74, R75). -/
def floatResponse (f : BF) (r : Nat) : Response :=
  .ok (BitVec.ofNat 32 r) (classCode (f.classify r)) (f.render r)

/-- An FX request: FormatOverflow first, then the refusal of `a = 0` or `b = 0`, then the operation on the normalised
operands, which may itself fail (30_encoding.md R72 step 2, 60_exceptions.md R275). -/
def fxRequest (a b : Nat) (op : Nat → Nat → Except Failure Nat) (s : State) : StepOutcome :=
  withRequest s fun req =>
    if 32 < a + b then raiseFailure .formatOverflow s
    else if a < 1 ∨ b < 1 then .refused .abRange
    else
      match op (fxOperand (a + b) req.x) (fxOperand (a + b) req.y) with
      | .error e => raiseFailure e s
      | .ok r => .next (respond (fxResponse s.params.fxTie a b r) s)

/-- A floating request with the operand `X` alone; `Y` is not read (30_encoding.md R71, R72 step 3). -/
def floatUnary (f : BF) (op : Nat → Nat) (s : State) : StepOutcome :=
  withRequest s fun req =>
    if wideFor f req.x then .refused .wideOperand
    else .next (respond (floatResponse f (op (floatOperand req.x))) s)

/-- A floating request with the operands `X` and `Y` (30_encoding.md R72 step 3). -/
def floatBinary (f : BF) (op : Nat → Nat → Nat) (s : State) : StepOutcome :=
  withRequest s fun req =>
    if wideFor f req.x || wideFor f req.y then .refused .wideOperand
    else .next (respond (floatResponse f (op (floatOperand req.x) (floatOperand req.y))) s)

end Sys2Proof.Machine
end

