-- ==== Sys2Proof/Machine/FxUnit.lean ====
section
/-! DEFINITION. The five operations of the fixed-point unit FX (40_fixed_arith.md section 2). -/

namespace Sys2Proof.Machine

/-- `FX.ID a, b, x` (40_fixed_arith.md R110). -/
def execFxId (a b : Nat) (s : State) : StepOutcome :=
  fxRequest a b (fun x _ => .ok x) s

/-- `FX.ADD a, b, x, y` (R111). -/
def execFxAdd (a b : Nat) (s : State) : StepOutcome :=
  fxRequest a b (fun x y => .ok (Sys2Proof.fxAdd (a + b) x y)) s

/-- `FX.SUB a, b, x, y` (R112). -/
def execFxSub (a b : Nat) (s : State) : StepOutcome :=
  fxRequest a b (fun x y => .ok (Sys2Proof.fxSub (a + b) x y)) s

/-- `FX.MUL a, b, x, y` (R113). -/
def execFxMul (a b : Nat) (s : State) : StepOutcome :=
  fxRequest a b (fun x y => .ok (Sys2Proof.fxMul a b x y)) s

/-- `FX.DIV a, b, x, y`: DivisionByZero when the normalised divisor is 0 (R114, 60_exceptions.md R271). -/
def execFxDiv (a b : Nat) (s : State) : StepOutcome :=
  fxRequest a b (fun x y => if y = 0 then .error .divByZero else .ok (Sys2Proof.fxDiv a b x y)) s

end Sys2Proof.Machine
end

