-- ==== Sys2Proof/Machine/FloatAddSub.lean ====
section
/-! DEFINITION. Add and subtract of the binary floating engine (43_float_addsub.md). `q` is the canonical NaN of the
format, the parameter `QNAN` (00_scope.md R9). -/

namespace Sys2Proof

/-- `addmag(a, b)` for finite `a`, `b` with sign bit 0 (43_float_addsub.md R185). -/
def BF.addmag (f : BF) (a b : Nat) : Nat :=
  let (ea, ma) := f.unpack a
  let (eb, mb) := f.unpack b
  if ea < eb then f.construct eb (mb + ma / 2 ^ (eb - ea).toNat)
  else f.construct ea (ma + mb / 2 ^ (ea - eb).toNat)

/-- `submag(a, b)` once `b` is not above `a` (R186). -/
def BF.submagOrdered (f : BF) (a b : Nat) : Nat :=
  let (ea, ma) := f.unpack a
  let (eb, mb) := f.unpack b
  f.construct ea (ma - mb / 2 ^ (ea - eb).toNat)

/-- `submag(a, b)` for finite `a`, `b` with sign bit 0 (R186). -/
def BF.submag (f : BF) (a b : Nat) : Nat :=
  if f.lessThan a b then f.negate (f.submagOrdered b a) else f.submagOrdered a b

/-- `add(x, y)` (R180, R181, R182, R193). -/
def BF.add (f : BF) (q x y : Nat) : Nat :=
  if f.isNan x || f.isNan y then q
  else if f.isInfinity x && f.isInfinity y then (if f.sign x = f.sign y then x else q)
  else if f.isInfinity x then x
  else if f.isInfinity y then y
  else
    match f.sign x, f.sign y with
    | false, false => f.addmag (f.abs x) (f.abs y)
    | true, true => f.negate (f.addmag (f.abs x) (f.abs y))
    | false, true => f.submag (f.abs x) (f.abs y)
    | true, false => f.negate (f.submag (f.abs x) (f.abs y))

/-- `sub(x, y)` (R190, R191, R192, R194). -/
def BF.sub (f : BF) (q x y : Nat) : Nat :=
  if f.isNan x || f.isNan y then q
  else if f.isInfinity x && f.isInfinity y then (if f.sign x = f.sign y then q else x)
  else if f.isInfinity x then x
  else if f.isInfinity y then f.negate y
  else
    match f.sign x, f.sign y with
    | false, false => f.submag (f.abs x) (f.abs y)
    | true, true => f.negate (f.submag (f.abs x) (f.abs y))
    | false, true => f.addmag (f.abs x) (f.abs y)
    | true, false => f.negate (f.addmag (f.abs x) (f.abs y))

end Sys2Proof
end

