-- ==== Sys2Proof/Machine/FloatMulDiv.lean ====
section
/-! DEFINITION. Multiply and divide of the binary floating engine (44_float_muldiv.md). `q` is the canonical NaN of the
format, the parameter `QNAN`; `dii` is the parameter `DIV_INF_INF` (00_scope.md R9). -/

namespace Sys2Proof

/-- `mul` of two operands that are denormal or normal, without the sign (44_float_muldiv.md R215). -/
def BF.mulmag (f : BF) (x y : Nat) : Nat :=
  let (ex, mx) := f.unpack (f.abs x)
  let (ey, my) := f.unpack (f.abs y)
  f.construct (ex + ey - f.m) (mx * my)

/-- `mul(x, y)` (R210 to R215, R218). -/
def BF.mul (f : BF) (q x y : Nat) : Nat :=
  let s := f.sign x != f.sign y
  if f.isNan x || f.isNan y then q
  else if (f.isInfinity x && f.isZero y) || (f.isZero x && f.isInfinity y) then q
  else if f.isZero x || f.isZero y then f.withSign s 0
  else if f.isInfinity x || f.isInfinity y then f.withSign s f.inf
  else f.withSign s (f.mulmag x y)

/-- `div` of two operands that are denormal or normal, without the sign (R225). -/
def BF.divmag (f : BF) (x y : Nat) : Nat :=
  let (ex, mx) := f.unpack (f.abs x)
  let (ey, my) := f.unpack (f.abs y)
  f.construct (ex - ey) (mx * 2 ^ f.m / my)

/-- Infinity by infinity with the result's sign `s` (R222). -/
def BF.divInfInf (f : BF) (dii : DivInfInf) (q : Nat) (s : Bool) : Nat :=
  match dii with
  | .nan => q
  | .inf => f.withSign s f.inf
  | .zero => f.withSign s 0

/-- `div(x, y)` (R220 to R226). -/
def BF.div (f : BF) (dii : DivInfInf) (q x y : Nat) : Nat :=
  let s := f.sign x != f.sign y
  if f.isNan x || f.isNan y then q
  else if f.isZero x && f.isZero y then q
  else if f.isInfinity x && f.isInfinity y then f.divInfInf dii q s
  else if f.isZero x then f.withSign s 0
  else if f.isZero y then f.withSign s f.inf
  else if f.isInfinity x then f.withSign s f.inf
  else if f.isInfinity y then f.withSign s 0
  else f.withSign s (f.divmag x y)

end Sys2Proof
end

