-- ==== Sys2Proof/Machine/HUnit.lean ====
section
/-! DEFINITION. The five operations of the half-precision unit H, BF at the parameters of 00_scope.md R8 and the canonical
NaN of the machine's parameters (43_float_addsub.md section 5, 44_float_muldiv.md section 3, 45_float_render.md section 2). -/

namespace Sys2Proof.Machine

/-- `H.ID x`: the pattern passes through unchanged (45_float_render.md R255). -/
def execHId (s : State) : StepOutcome :=
  floatUnary half (fun x => x) s

/-- `H.ADD x, y` (43_float_addsub.md R200). -/
def execHAdd (s : State) : StepOutcome :=
  floatBinary half (fun x y => BF.add half s.params.qnanH.toNat x y) s

/-- `H.SUB x, y` (43_float_addsub.md R201). -/
def execHSub (s : State) : StepOutcome :=
  floatBinary half (fun x y => BF.sub half s.params.qnanH.toNat x y) s

/-- `H.MUL x, y` (44_float_muldiv.md R230). -/
def execHMul (s : State) : StepOutcome :=
  floatBinary half (fun x y => BF.mul half s.params.qnanH.toNat x y) s

/-- `H.DIV x, y`; a zero divisor is no failure (44_float_muldiv.md R231). -/
def execHDiv (s : State) : StepOutcome :=
  floatBinary half (fun x y => BF.div half s.params.divInfInf s.params.qnanH.toNat x y) s

end Sys2Proof.Machine
end

