-- ==== Sys2Proof/Machine/SUnit.lean ====
section
/-! DEFINITION. The five operations of the single-precision unit S, BF at the parameters of 00_scope.md R8 and the canonical
NaN of the machine's parameters (43_float_addsub.md section 5, 44_float_muldiv.md section 3, 45_float_render.md section 2). -/

namespace Sys2Proof.Machine

/-- `S.ID x`: the pattern passes through unchanged (45_float_render.md R256). -/
def execSId (s : State) : StepOutcome :=
  floatUnary single (fun x => x) s

/-- `S.ADD x, y` (43_float_addsub.md R202). -/
def execSAdd (s : State) : StepOutcome :=
  floatBinary single (fun x y => BF.add single s.params.qnanS.toNat x y) s

/-- `S.SUB x, y` (43_float_addsub.md R203). -/
def execSSub (s : State) : StepOutcome :=
  floatBinary single (fun x y => BF.sub single s.params.qnanS.toNat x y) s

/-- `S.MUL x, y` (44_float_muldiv.md R232). -/
def execSMul (s : State) : StepOutcome :=
  floatBinary single (fun x y => BF.mul single s.params.qnanS.toNat x y) s

/-- `S.DIV x, y`; a zero divisor is no failure (44_float_muldiv.md R233). -/
def execSDiv (s : State) : StepOutcome :=
  floatBinary single (fun x y => BF.div single s.params.divInfInf s.params.qnanS.toNat x y) s

end Sys2Proof.Machine
end

