-- ==== Sys2Proof/Machine/Dispatch.lean ====
section
/-! DEFINITION. One arm per operation (30_encoding.md R72, R81). -/

namespace Sys2Proof.Machine

/-- What an operation does with the request at the head. -/
def exec (i : Instr) (s : State) : Host.Outcome State Fault Refusal :=
  match i with
  | .fxId a b => Sys2Proof.Machine.execFxId a b s
  | .fxAdd a b => Sys2Proof.Machine.execFxAdd a b s
  | .fxSub a b => Sys2Proof.Machine.execFxSub a b s
  | .fxMul a b => Sys2Proof.Machine.execFxMul a b s
  | .fxDiv a b => Sys2Proof.Machine.execFxDiv a b s
  | .hId => Sys2Proof.Machine.execHId s
  | .hAdd => Sys2Proof.Machine.execHAdd s
  | .hSub => Sys2Proof.Machine.execHSub s
  | .hMul => Sys2Proof.Machine.execHMul s
  | .hDiv => Sys2Proof.Machine.execHDiv s
  | .sId => Sys2Proof.Machine.execSId s
  | .sAdd => Sys2Proof.Machine.execSAdd s
  | .sSub => Sys2Proof.Machine.execSSub s
  | .sMul => Sys2Proof.Machine.execSMul s
  | .sDiv => Sys2Proof.Machine.execSDiv s

end Sys2Proof.Machine
end

