-- ==== Sys2Proof/Machine/Step.lean ====
section
/-! DEFINITION. One step of CORE: the oldest request is decoded and executed (30_encoding.md R72). -/

namespace Sys2Proof.Machine

/-- One step: the request's command word is decoded, then its operation runs (30_encoding.md R72); without a request the
run has ended (70_reset_and_hazards.md R307). DESIGN CHOICE: a refused request ends the run. The step gives no next state,
the request stays at the head, and the later requests of the list are not answered; the spec says that a model refuses
such a request (30_encoding.md R77) and not how a run goes on after it (log entry 12; safe). -/
def step (s : State) : Host.Outcome State Fault Refusal :=
  withRequest s fun req =>
    match Sys2Proof.decode req.cmd with
    | .ok i => exec i s
    | .error e => .refused (refusalOf e)

/-- `s` with the request `w` (its low `nbits` bits, the rest 0) in the place of the oldest one: word 0 is `CMD`, word 1
`X`, word 2 `Y` (10_state.md R28, 30_encoding.md R60). The step samples all three at once (20_memory.md R47). -/
def State.withFetchWord (s : State) (nbits w : Nat) : State :=
  let v := w % 2 ^ nbits
  { s with
    requests :=
      { cmd := Sys2Proof.requestWord v 0, x := Sys2Proof.requestWord v 1, y := Sys2Proof.requestWord v 2 } ::
        s.requests.tail }

end Sys2Proof.Machine
end

