-- ==== Sys2Proof/Machine/Assembler.lean ====
section
/-! DEFINITION. The notation in which the spec writes a request as one line of text, read and written (30_encoding.md
R80; log entry 7). It is no part of a step: it turns a line into the request record that a step takes. -/

namespace Sys2Proof.Machine

/-- The operation reads the port `Y`; the identities do not (30_encoding.md R64, R71). -/
def usesY : Instr → Bool
  | .fxId _ _ => false
  | .fxAdd _ _ => true
  | .fxSub _ _ => true
  | .fxMul _ _ => true
  | .fxDiv _ _ => true
  | .hId => false
  | .hAdd => true
  | .hSub => true
  | .hMul => true
  | .hDiv => true
  | .sId => false
  | .sAdd => true
  | .sSub => true
  | .sMul => true
  | .sDiv => true

/-- The mnemonic of an operation (30_encoding.md R81). -/
def mnemonic : Instr → List Char
  | .fxId _ _ => ['F', 'X', '.', 'I', 'D']
  | .fxAdd _ _ => ['F', 'X', '.', 'A', 'D', 'D']
  | .fxSub _ _ => ['F', 'X', '.', 'S', 'U', 'B']
  | .fxMul _ _ => ['F', 'X', '.', 'M', 'U', 'L']
  | .fxDiv _ _ => ['F', 'X', '.', 'D', 'I', 'V']
  | .hId => ['H', '.', 'I', 'D']
  | .hAdd => ['H', '.', 'A', 'D', 'D']
  | .hSub => ['H', '.', 'S', 'U', 'B']
  | .hMul => ['H', '.', 'M', 'U', 'L']
  | .hDiv => ['H', '.', 'D', 'I', 'V']
  | .sId => ['S', '.', 'I', 'D']
  | .sAdd => ['S', '.', 'A', 'D', 'D']
  | .sSub => ['S', '.', 'S', 'U', 'B']
  | .sMul => ['S', '.', 'M', 'U', 'L']
  | .sDiv => ['S', '.', 'D', 'I', 'V']

/-- `FMT` of a unit's name (30_encoding.md R63, R80). -/
def unitNamed (t : List Byte) : Option Nat :=
  if t = ascii ['F', 'X'] then some 0
  else if t = ascii ['H'] then some 1
  else if t = ascii ['S'] then some 2
  else none

/-- `OP` of an operator's name (30_encoding.md R64, R80). -/
def operatorNamed (t : List Byte) : Option Nat :=
  if t = ascii ['I', 'D'] then some 0
  else if t = ascii ['A', 'D', 'D'] then some 1
  else if t = ascii ['S', 'U', 'B'] then some 2
  else if t = ascii ['M', 'U', 'L'] then some 3
  else if t = ascii ['D', 'I', 'V'] then some 4
  else none

/-- The value of a digit in a numeral; both letter cases are read (log entry 7). -/
def digitNamed (c : Byte) : Option Nat :=
  let v := c.toNat
  if 0x30 ≤ v ∧ v ≤ 0x39 then some (v - 0x30)
  else if 0x61 ≤ v ∧ v ≤ 0x66 then some (v - 0x61 + 10)
  else if 0x41 ≤ v ∧ v ≤ 0x46 then some (v - 0x41 + 10)
  else none

/-- A numeral whose value so far is `acc`. -/
def numeralFrom (base acc : Nat) : List Byte → Option Nat
  | [] => some acc
  | c :: rest =>
    match digitNamed c with
    | none => none
    | some d => if d < base then numeralFrom base (acc * base + d) rest else none

/-- The number a numeral of at least one digit stands for. -/
def numeral (base : Nat) (t : List Byte) : Option Nat :=
  if t = [] then none else numeralFrom base 0 t

/-- `a` or `b` of a line: a decimal numeral that the six-bit field can hold (30_encoding.md R66, R80). -/
def lineField (t : List Byte) : Option Nat :=
  match numeral 10 t with
  | none => none
  | some v => if v < 64 then some v else none

/-- An operand of a line: `0x` and a hexadecimal numeral that the port can hold (30_encoding.md R80). -/
def linePort (t : List Byte) : Option Word :=
  if t.take 2 = ascii ['0', 'x'] then
    match numeral 16 (t.drop 2) with
    | none => none
    | some v => if v < 2 ^ 32 then some (BitVec.ofNat 32 v) else none
  else none

/-- The parts of a text between its separators `sep`. -/
def splitAtByte (sep : Byte) : List Byte → List (List Byte)
  | [] => [[]]
  | c :: rest =>
    if c = sep then [] :: splitAtByte sep rest
    else
      match splitAtByte sep rest with
      | [] => [[c]]
      | part :: parts => (c :: part) :: parts

/-- A part without the spaces before it. -/
def dropSpaces (t : List Byte) : List Byte := t.dropWhile (fun c => c == asciiCode ' ')

/-- The operand words: `x` for `ID`, `x` and `y` for the others (30_encoding.md R80). The port `Y` that an `ID` line does
not write holds 0; it is not read (R71, log entry 7). DESIGN CHOICE: an `ID` line may write a second literal, the content
of `Y`. R80 says that `ID` takes `x` only, 95_test_vectors.md writes such a line for `H.ID`, and no ruling settles which
holds (log entry 7; unsafe for a claim that a text is no line). -/
def lineOperands (op : Nat) (parts : List (List Byte)) : Option (Word × Word) :=
  match parts with
  | [x] =>
    if op = 0 then
      match linePort x with
      | some vx => some (vx, 0#32)
      | none => none
    else none
  | [x, y] =>
    match linePort x, linePort y with
    | some vx, some vy => some (vx, vy)
    | _, _ => none
  | _ => none

/-- The request of a unit, an operator and the parts after them; `a` and `b` stand first for FX (30_encoding.md R80). -/
def lineRequest (fmt op : Nat) (parts : List (List Byte)) : Option Request :=
  if fmt = 0 then
    match parts with
    | a :: b :: rest =>
      match lineField a, lineField b, lineOperands op rest with
      | some va, some vb, some (x, y) => some { cmd := cmdWord 0 op va vb, x := x, y := y }
      | _, _, _ => none
    | _ => none
  else
    match lineOperands op parts with
    | some (x, y) => some { cmd := cmdWord fmt op 0 0, x := x, y := y }
    | none => none

/-- The request a line stands for: the unit up to the point, the operator up to the first space, and the parts between
commas (30_encoding.md R80). -/
def assemble (line : List Byte) : Option Request :=
  let head := line.takeWhile (fun c => c != asciiCode ' ')
  let rest := line.drop head.length
  match unitNamed (head.takeWhile (fun c => c != asciiCode '.')),
      operatorNamed ((head.dropWhile (fun c => c != asciiCode '.')).drop 1) with
  | some fmt, some op => lineRequest fmt op ((splitAtByte (asciiCode ',') rest).map dropSpaces)
  | _, _ => none

/-- The parts of the line of an operation and its port words, as they are written (30_encoding.md R80). -/
def lineParts (i : Instr) (x y : Word) : List (List Byte) :=
  let port (w : Word) := ascii ['0', 'x'] ++ hexDigitsOf 8 w.toNat
  let operands := if usesY i then [port x, port y] else [port x]
  match i with
  | .fxId a b => [dec a, dec b] ++ operands
  | .fxAdd a b => [dec a, dec b] ++ operands
  | .fxSub a b => [dec a, dec b] ++ operands
  | .fxMul a b => [dec a, dec b] ++ operands
  | .fxDiv a b => [dec a, dec b] ++ operands
  | .hId => operands
  | .hAdd => operands
  | .hSub => operands
  | .hMul => operands
  | .hDiv => operands
  | .sId => operands
  | .sAdd => operands
  | .sSub => operands
  | .sMul => operands
  | .sDiv => operands

/-- The line of an operation and its port words (30_encoding.md R80). -/
def assemblyLine (i : Instr) (x y : Word) : List Byte :=
  ascii (mnemonic i) ++ ascii [' '] ++ (ascii [',', ' ']).intercalate (lineParts i x y)

end Sys2Proof.Machine
end

