-- ==== Sys2Proof/Safety.lean ====
section
/-! DEFINITION. The terms the claims are stated in: the numbers that patterns stand for, truncation to a format, the
contract of a request, legal responses, and the invariant of a run. Nothing here is part of the machine. -/

namespace Sys2Proof

/-- `val(v) * 2^b` of an `n`-bit pattern: the signed integer that two's complement gives it (10_state.md R30). -/
def fxVal (n v : Nat) : Int := if 2 ^ (n - 1) ≤ v then (v : Int) - 2 ^ n else v

/-- The two instances of the engine (00_scope.md R8). -/
def BF.IsUnit (f : BF) : Prop := f = half ∨ f = single

/-- `x` is a value of the format: a `W`-bit pattern (10_state.md R31). -/
abbrev BF.Pattern (f : BF) (x : Nat) : Prop := x < 2 ^ f.width

/-- `x` is zero, denormal or normal (42_float_common.md R151 to R153). -/
abbrev BF.Finite (f : BF) (x : Nat) : Prop := f.isInfinity x = false ∧ f.isNan x = false

/-- `2^k` for an integer `k`. -/
def pow2 (k : Int) : ℚ := (2 : ℚ) ^ k

/-- `|value(x)|` of a finite `x` (42_float_common.md R157, R161). -/
def BF.magnitude (f : BF) (x : Nat) : ℚ := ((f.unpack x).2 : ℚ) * pow2 ((f.unpack x).1 - f.m)

/-- `value(x)` of a finite `x` (42_float_common.md R157). -/
def BF.value (f : BF) (x : Nat) : ℚ := if f.sign x then -f.magnitude x else f.magnitude x

/-- `g` is the number `v ≥ 0` truncated to the format: the largest finite magnitude pattern whose value does not exceed
`v`, and `INF` when `v ≥ 2^(emax + 1)` (42_float_common.md R172). -/
def BF.IsTruncation (f : BF) (v : ℚ) (g : Nat) : Prop :=
  (pow2 (f.emax + 1) ≤ v → g = f.inf) ∧
  (v < pow2 (f.emax + 1) →
    g < f.inf ∧ f.magnitude g ≤ v ∧ ∀ h, h < f.inf → f.magnitude h ≤ v → h ≤ g)

/-- The natural number a list of decimal digits reads as. -/
def readDecimal (t : List Byte) : Nat := t.foldl (fun acc c => acc * 10 + (c.toNat - 0x30)) 0

/-- The value of one lowercase hexadecimal digit. -/
def hexDigitValue (c : Byte) : Nat := if c.toNat < 0x61 then c.toNat - 0x30 else c.toNat - 0x61 + 10

/-- The natural number a list of hexadecimal digits reads as. -/
def readHex (t : List Byte) : Nat := t.foldl (fun acc c => acc * 16 + hexDigitValue c) 0

/-- The byte is one of the characters a text may hold (00_scope.md R13). -/
def textByte (c : Byte) : Bool :=
  (ascii ['0', '1', '2', '3', '4', '5', '6', '7', '8', '9', 'a', 'b', 'c', 'd', 'e', 'f', 'i', 'n', 'p', 'x',
    '+', '-', '.']).contains c

/-- A row of the opcode map: `match`, `mask`, and the operation with the fields `A` and `B` (30_encoding.md R81). -/
structure OpcodeRow where
  matchWord : Word
  mask : Word
  operation : Nat → Nat → Instr

/-- The opcode map (30_encoding.md R81). -/
def opcodeMap : List OpcodeRow :=
  [ ⟨0x00000000#32, 0xFFC0C0FF#32, fun a b => .fxId a b⟩,
    ⟨0x00000004#32, 0xFFC0C0FF#32, fun a b => .fxAdd a b⟩,
    ⟨0x00000008#32, 0xFFC0C0FF#32, fun a b => .fxSub a b⟩,
    ⟨0x0000000C#32, 0xFFC0C0FF#32, fun a b => .fxMul a b⟩,
    ⟨0x00000010#32, 0xFFC0C0FF#32, fun a b => .fxDiv a b⟩,
    ⟨0x00000001#32, 0xFFFFFFFF#32, fun _ _ => .hId⟩,
    ⟨0x00000005#32, 0xFFFFFFFF#32, fun _ _ => .hAdd⟩,
    ⟨0x00000009#32, 0xFFFFFFFF#32, fun _ _ => .hSub⟩,
    ⟨0x0000000D#32, 0xFFFFFFFF#32, fun _ _ => .hMul⟩,
    ⟨0x00000011#32, 0xFFFFFFFF#32, fun _ _ => .hDiv⟩,
    ⟨0x00000002#32, 0xFFFFFFFF#32, fun _ _ => .sId⟩,
    ⟨0x00000006#32, 0xFFFFFFFF#32, fun _ _ => .sAdd⟩,
    ⟨0x0000000A#32, 0xFFFFFFFF#32, fun _ _ => .sSub⟩,
    ⟨0x0000000E#32, 0xFFFFFFFF#32, fun _ _ => .sMul⟩,
    ⟨0x00000012#32, 0xFFFFFFFF#32, fun _ _ => .sDiv⟩ ]

namespace Machine

/-- The field `hi:lo` of a command word, read as a number (00_scope.md R10, 30_encoding.md R61). -/
def cmdField (w : Word) (hi lo : Nat) : Nat := (w.extractLsb hi lo).toNat

/-- A reserved bit of `CMD` is set (30_encoding.md R67). -/
def ReservedBitsSet (w : Word) : Prop :=
  cmdField w 7 7 ≠ 0 ∨ cmdField w 15 14 ≠ 0 ∨ cmdField w 31 22 ≠ 0

/-- The request is one of those that have no meaning (30_encoding.md R77). -/
def Request.OutsideContract (r : Request) : Prop :=
  ReservedBitsSet r.cmd ∨
  cmdField r.cmd 1 0 = 3 ∨
  5 ≤ cmdField r.cmd 4 2 ∨
  cmdField r.cmd 6 5 ≠ 0 ∨
  (cmdField r.cmd 1 0 ≠ 0 ∧ (cmdField r.cmd 13 8 ≠ 0 ∨ cmdField r.cmd 21 16 ≠ 0)) ∨
  (cmdField r.cmd 1 0 = 0 ∧ cmdField r.cmd 13 8 + cmdField r.cmd 21 16 ≤ 32 ∧
    (cmdField r.cmd 13 8 = 0 ∨ cmdField r.cmd 21 16 = 0)) ∨
  (cmdField r.cmd 1 0 = 1 ∧
    (0xFFFF < r.x.toNat ∨ (cmdField r.cmd 4 2 ≠ 0 ∧ 0xFFFF < r.y.toNat)))

/-- The state after the request at the head, which leaves `rest`, has been answered by `r`: one response more and
nothing else changed. -/
def State.answered (s : State) (rest : List Request) (r : Response) : State :=
  { params := s.params, requests := rest, responses := s.responses ++ [r] }

/-- A response that can be produced: a text of 3 to 16 characters of the set of 00_scope.md R13, and a class code of 0 to
4 (10_state.md R29, 30_encoding.md R75, R76). A failed response carries nothing that could be illegal. -/
def Response.legal : Response → Bool
  | .ok _ c t => decide (c.toNat ≤ 4) && decide (3 ≤ t.length) && decide (t.length ≤ 16) && t.all textByte
  | .fail _ => true

/-- The two canonical NaN patterns are NaNs of their formats (00_scope.md R9). -/
def ParamsLegal (p : Params) : Bool :=
  BF.isNan half p.qnanH.toNat && BF.isNan single p.qnanS.toNat

/-- The invariant of a run: legal parameters, and every response given is legal. -/
def State.Inv (s : State) : Prop :=
  ParamsLegal s.params = true ∧ ∀ r ∈ s.responses, r.legal = true

/-- What the fields of an OK response hold, by unit: an FX result fits `a + b` bits and its class code is 0; an H or S
result fits its format and the class code is that of the result (30_encoding.md R74, R75). -/
def FieldsMatch (r : Word) (c : BitVec 3) : Instr → Prop
  | .fxId a b => r.toNat < 2 ^ (a + b) ∧ c = 0#3
  | .fxAdd a b => r.toNat < 2 ^ (a + b) ∧ c = 0#3
  | .fxSub a b => r.toNat < 2 ^ (a + b) ∧ c = 0#3
  | .fxMul a b => r.toNat < 2 ^ (a + b) ∧ c = 0#3
  | .fxDiv a b => r.toNat < 2 ^ (a + b) ∧ c = 0#3
  | .hId => r.toNat < 2 ^ 16 ∧ c = classCode (half.classify r.toNat)
  | .hAdd => r.toNat < 2 ^ 16 ∧ c = classCode (half.classify r.toNat)
  | .hSub => r.toNat < 2 ^ 16 ∧ c = classCode (half.classify r.toNat)
  | .hMul => r.toNat < 2 ^ 16 ∧ c = classCode (half.classify r.toNat)
  | .hDiv => r.toNat < 2 ^ 16 ∧ c = classCode (half.classify r.toNat)
  | .sId => c = classCode (single.classify r.toNat)
  | .sAdd => c = classCode (single.classify r.toNat)
  | .sSub => c = classCode (single.classify r.toNat)
  | .sMul => c = classCode (single.classify r.toNat)
  | .sDiv => c = classCode (single.classify r.toNat)

/-- The five FX operations in `Q(a,b)`. -/
def fxOperations (a b : Nat) : List Instr := [.fxId a b, .fxAdd a b, .fxSub a b, .fxMul a b, .fxDiv a b]

/-- A safe step: it answers its request. -/
def SafeStep (s : State) : Prop := ∃ t, step s = .next t

/-- Response `r` is what CORE answers to request `q` on its own, under the parameters `p`. -/
def Answers (p : Params) (q : Request) (r : Response) : Prop :=
  step { params := p, requests := [q], responses := [] } = .next { params := p, requests := [], responses := [r] }

end Machine

end Sys2Proof
end

