-- ==== Sys2Proof/Certificates/Slice0/Obligations.lean ====
section
/-! DEFINITION. The statements for the provers, from the numbered rules of spec/. Statements about a parameter of
00_scope.md R9 hold for every value of that parameter. -/

open Sys2Proof Sys2Proof.Machine

/-! ## Encoding -/

/-- Decoding the command word of a well-formed operation gives the operation back, with every `A` and `B` the fields
admit (30_encoding.md R61, R63, R64, R66, R81). -/
def Obligations.DecodeEncodeRoundTrip : Prop :=
  ∀ i : Instr, i.WellFormed → decode (encode i) = .ok i

/-- Every command word that decodes is the one command word of the operation it decodes to (30_encoding.md R61, R81). -/
def Obligations.DecodedWordIsItsEncoding : Prop :=
  ∀ (w : Word) (i : Instr), decode w = .ok i → i.WellFormed ∧ encode i = w

/-- A command word decodes to the operation of a row of the opcode map exactly when it agrees with the row's match under
its mask (30_encoding.md R81). -/
def Obligations.OpcodeMapSelectsOperation : Prop :=
  ∀ row ∈ opcodeMap, ∀ w : Word,
    w &&& row.mask = row.matchWord ↔ decode w = .ok (row.operation (cmdField w 13 8) (cmdField w 21 16))

/-- Command words written out by hand from 30_encoding.md R61, R62 and R81 decode to what they stand for. -/
def Obligations.SpecWordsDecode : Prop :=
  decode 0x00040404#32 = .ok (.fxAdd 4 4) ∧ decode 0x001F0110#32 = .ok (.fxDiv 1 31) ∧
  decode 0x003F3F0C#32 = .ok (.fxMul 63 63) ∧ decode 0x00000009#32 = .ok .hSub ∧ decode 0x0000000E#32 = .ok .sMul

/-! ## The step -/

/-- A request of 30_encoding.md R77 is refused, every other request is answered (R72, R78), and the one malformed request
with an outcome, `FMT = 0` with `a + b > 32`, is answered FormatOverflow (R77). -/
def Obligations.RefusedExactlyOutsideContract : Prop :=
  ∀ (s : State) (req : Request) (rest : List Request), s.requests = req :: rest →
    (req.OutsideContract → ∃ r, step s = .refused r) ∧ (¬ req.OutsideContract → SafeStep s) ∧
    (¬ req.OutsideContract → cmdField req.cmd 1 0 = 0 → 32 < cmdField req.cmd 13 8 + cmdField req.cmd 21 16 →
      step s = .next (s.answered rest (.fail .formatOverflow)))

/-- The refusals of 30_encoding.md R72 step 1, each by its name and in the rule's order. -/
def Obligations.DecodeRefusalsInOrder : Prop :=
  ∀ (s : State) (req : Request) (rest : List Request), s.requests = req :: rest →
    (ReservedBitsSet req.cmd → step s = .refused .reservedBits) ∧
    (¬ ReservedBitsSet req.cmd → cmdField req.cmd 1 0 = 3 → step s = .refused .reservedFmt) ∧
    (¬ ReservedBitsSet req.cmd → cmdField req.cmd 1 0 ≠ 3 → 5 ≤ cmdField req.cmd 4 2 →
      step s = .refused .reservedOp) ∧
    (¬ ReservedBitsSet req.cmd → cmdField req.cmd 1 0 ≠ 3 → cmdField req.cmd 4 2 < 5 → cmdField req.cmd 6 5 ≠ 0 →
      step s = .refused .roundMode) ∧
    (¬ ReservedBitsSet req.cmd → cmdField req.cmd 1 0 ≠ 3 → cmdField req.cmd 4 2 < 5 → cmdField req.cmd 6 5 = 0 →
      cmdField req.cmd 1 0 ≠ 0 → cmdField req.cmd 13 8 ≠ 0 ∨ cmdField req.cmd 21 16 ≠ 0 →
      step s = .refused .reservedBits)

/-- When the command word of the oldest request decodes to `i`, the step is `exec i` at that state, with nothing around it;
when it is rejected, the step refuses by the rejection's name (30_encoding.md R72). -/
def Obligations.StepRunsDecodedInstruction : Prop :=
  ∀ (s : State) (req : Request) (rest : List Request), s.requests = req :: rest →
    (∀ i, decode req.cmd = .ok i → step s = exec i s) ∧
    (∀ e, decode req.cmd = .error e → step s = .refused (refusalOf e))

/-- With no request presented the run has ended (70_reset_and_hazards.md R307; the form of the ending is the model's,
log entry 5). -/
def Obligations.StepEndsWithoutRequest : Prop :=
  ∀ s : State, s.requests = [] → step s = .fault .noRequest

/-- Reset leaves no request and no response, and the invariant of a run holds (70_reset_and_hazards.md R300, R301; the
parameter values are the spec's defaults, log entries 2, 3, 4). -/
def Obligations.ResetMeetsInvariant : Prop :=
  State.reset.Inv ∧ State.reset.requests = [] ∧ State.reset.responses = []

/-- From every state that meets the invariant, a step that answers gives a state that meets it: the canonical NaNs are
NaNs and every response given has a text of 3 to 16 legal characters and a class code of at most 4. -/
def Obligations.StepKeepsInvariant : Prop :=
  ∀ s t : State, s.Inv → step s = .next t → t.Inv

/-- The frame of all fifteen operations: one request is taken, one response is given, and nothing else changes
(10_state.md R19, R20). -/
def Obligations.ExecFrame : Prop :=
  ∀ (i : Instr) (s t : State), exec i s = .next t →
    ∃ req r, s.requests = req :: t.requests ∧ t = s.answered t.requests r

/-- One step takes one request and gives one response; nothing else happens (10_state.md R19). -/
def Obligations.StepTakesOneGivesOne : Prop :=
  ∀ s t : State, step s = .next t →
    ∃ req r, s.requests = req :: t.requests ∧ t = s.answered t.requests r

/-- The response to a request depends on that request alone (20_memory.md R45), and so does its refusal. -/
def Obligations.ResponseDependsOnRequestAlone : Prop :=
  ∀ (s₁ s₂ : State) (req : Request) (rest₁ rest₂ : List Request),
    s₁.requests = req :: rest₁ → s₂.requests = req :: rest₂ → s₁.params = s₂.params →
      (∀ r, step s₁ = .next (s₁.answered rest₁ r) ↔ step s₂ = .next (s₂.answered rest₂ r)) ∧
      (∀ e, step s₁ = .refused e ↔ step s₂ = .refused e)

/-- A run of requests within the contract maps them to responses, one each and in order, each the answer to its own
request (20_memory.md R45), and it ends when the list ends (70_reset_and_hazards.md R307, 60_exceptions.md R277: a failed
request leaves the later ones as they are). That the end is the fault `noRequest` is the model's choice, log entry 5; a run with
a request outside the contract is not spoken of, log entry 12. -/
def Obligations.RunMapsRequestsToResponses : Prop :=
  ∀ s : State, (∀ q ∈ s.requests, ¬ q.OutsideContract) →
    ∃ rs : List Response,
      Host.Core.run core s.requests.length s =
        .next (State.mk s.params [] (s.responses ++ rs)) ∧
      List.Forall₂ (Answers s.params) s.requests rs ∧
      Host.Core.run core (s.requests.length + 1) s = .fault Fault.noRequest

/-! ## The fixed-point unit -/

/-- `FX.ID`: FormatOverflow when `a + b > 32`, else the operand normalised (40_fixed_arith.md R110). -/
def Obligations.FxIdResult : Prop :=
  ∀ (a b : Nat) (s : State) (req : Request) (rest : List Request), s.requests = req :: rest →
    (32 < a + b → exec (.fxId a b) s = .next (s.answered rest (.fail .formatOverflow))) ∧
    (1 ≤ a → 1 ≤ b → a + b ≤ 32 →
      exec (.fxId a b) s = .next (s.answered rest (fxResponse s.params.fxTie a b (req.x.toNat % 2 ^ (a + b)))))

/-- `FX.ADD`: FormatOverflow when `a + b > 32`, else the sum of the port words modulo `2^n` (40_fixed_arith.md R111). -/
def Obligations.FxAddResult : Prop :=
  ∀ (a b : Nat) (s : State) (req : Request) (rest : List Request), s.requests = req :: rest →
    (32 < a + b → exec (.fxAdd a b) s = .next (s.answered rest (.fail .formatOverflow))) ∧
    (1 ≤ a → 1 ≤ b → a + b ≤ 32 →
      exec (.fxAdd a b) s = .next (s.answered rest
        (fxResponse s.params.fxTie a b ((req.x.toNat + req.y.toNat) % 2 ^ (a + b)))))

/-- `FX.SUB`: FormatOverflow when `a + b > 32`, else the difference of the port words modulo `2^n`
(40_fixed_arith.md R112). -/
def Obligations.FxSubResult : Prop :=
  ∀ (a b : Nat) (s : State) (req : Request) (rest : List Request), s.requests = req :: rest →
    (32 < a + b → exec (.fxSub a b) s = .next (s.answered rest (.fail .formatOverflow))) ∧
    (1 ≤ a → 1 ≤ b → a + b ≤ 32 →
      exec (.fxSub a b) s = .next (s.answered rest
        (fxResponse s.params.fxTie a b (((req.x.toNat : Int) - req.y.toNat) % 2 ^ (a + b)).toNat)))

/-- `FX.MUL`: FormatOverflow when `a + b > 32`, else the exact product truncated toward zero to `b` fractional bits,
modulo `2^n` (40_fixed_arith.md R113, R107). -/
def Obligations.FxMulResult : Prop :=
  ∀ (a b : Nat) (s : State) (req : Request) (rest : List Request), s.requests = req :: rest →
    (32 < a + b → exec (.fxMul a b) s = .next (s.answered rest (.fail .formatOverflow))) ∧
    (1 ≤ a → 1 ≤ b → a + b ≤ 32 →
      exec (.fxMul a b) s = .next (s.answered rest (fxResponse s.params.fxTie a b
        (Int.tdiv (fxVal (a + b) (req.x.toNat % 2 ^ (a + b)) * fxVal (a + b) (req.y.toNat % 2 ^ (a + b))) (2 ^ b)
          % 2 ^ (a + b)).toNat)))

/-- `FX.DIV`: FormatOverflow when `a + b > 32`; else DivisionByZero when the normalised divisor is 0; else the exact
quotient truncated toward zero to `b` fractional bits, modulo `2^n` (40_fixed_arith.md R114, R108, 60_exceptions.md
R271). -/
def Obligations.FxDivResult : Prop :=
  ∀ (a b : Nat) (s : State) (req : Request) (rest : List Request), s.requests = req :: rest →
    (32 < a + b → exec (.fxDiv a b) s = .next (s.answered rest (.fail .formatOverflow))) ∧
    (1 ≤ a → 1 ≤ b → a + b ≤ 32 → req.y.toNat % 2 ^ (a + b) = 0 →
      exec (.fxDiv a b) s = .next (s.answered rest (.fail .divByZero))) ∧
    (1 ≤ a → 1 ≤ b → a + b ≤ 32 → req.y.toNat % 2 ^ (a + b) ≠ 0 →
      exec (.fxDiv a b) s = .next (s.answered rest (fxResponse s.params.fxTie a b
        (Int.tdiv (fxVal (a + b) (req.x.toNat % 2 ^ (a + b)) * 2 ^ b) (fxVal (a + b) (req.y.toNat % 2 ^ (a + b)))
          % 2 ^ (a + b)).toNat)))

/-- Every FX operation refuses a pair with `a + b ≤ 32` and `a = 0` or `b = 0` (30_encoding.md R72 step 2, R77). -/
def Obligations.FxRangeRefused : Prop :=
  ∀ (a b : Nat) (s : State) (req : Request) (rest : List Request), s.requests = req :: rest →
    a + b ≤ 32 → a = 0 ∨ b = 0 → ∀ i ∈ fxOperations a b, exec i s = .refused .abRange

/-- The complete list of failures: FormatOverflow from the FX operations with `a + b > 32`, DivisionByZero from `FX.DIV`
with a normalised divisor of 0, and no other; a failed response is its `STATUS` alone, 1 or 2 (60_exceptions.md R270). -/
def Obligations.FailuresAreTheTwoKinds : Prop :=
  ((Response.fail .divByZero).status = 1#2 ∧ (Response.fail .formatOverflow).status = 2#2) ∧
  ∀ (i : Instr) (s : State) (req : Request) (rest : List Request) (f : Failure), s.requests = req :: rest →
    (exec i s = .next (s.answered rest (.fail f)) ↔
      (f = .formatOverflow ∧ ∃ a b, 32 < a + b ∧ i ∈ fxOperations a b) ∨
      (f = .divByZero ∧ ∃ a b, 1 ≤ a ∧ 1 ≤ b ∧ a + b ≤ 32 ∧ i = .fxDiv a b ∧ req.y.toNat % 2 ^ (a + b) = 0))

/-- Masking is idempotent and lands in the format; negation is normalised two's complement and an involution, 0 and the
most negative pattern are their own negations, every other pattern's number is negated, and the most negative one's is
not (40_fixed_arith.md R115, R116, R102). -/
def Obligations.FxNormalizeAndNegateLaws : Prop :=
  ∀ n : Nat, 1 ≤ n →
    (∀ raw : Int, fxNormalize n (fxNormalize n raw) = fxNormalize n raw ∧ fxNormalize n raw < 2 ^ n) ∧
    (∀ x, x < 2 ^ n → fxNegate n x = fxNormalize n (-(x : Int)) ∧ fxNegate n (fxNegate n x) = x ∧
      (x ≠ 2 ^ (n - 1) → fxVal n (fxNegate n x) = -fxVal n x)) ∧
    fxNegate n 0 = 0 ∧ fxNegate n (2 ^ (n - 1)) = 2 ^ (n - 1) ∧
    fxVal n (fxNegate n (2 ^ (n - 1))) ≠ -fxVal n (2 ^ (n - 1))

/-- The sign-magnitude form is the sign bit and the pattern or its negation, and so the sign and the absolute value of the
pattern's number, the most negative pattern included (40_fixed_arith.md R103). -/
def Obligations.FxSignMagnitude : Prop :=
  ∀ n v : Nat, 1 ≤ n → v < 2 ^ n →
    fxSignmag n v = (if 2 ^ (n - 1) ≤ v then (true, fxNegate n v) else (false, v)) ∧
    ((fxSignmag n v).1 = true ↔ fxVal n v < 0) ∧ (fxSignmag n v).2 = (fxVal n v).natAbs ∧
      (fxSignmag n v).2 ≤ 2 ^ (n - 1)

/-- Addition and subtraction are arithmetic modulo `2^n` on the scaled numbers, exact whenever the true result is
representable (40_fixed_arith.md R117). -/
def Obligations.FxAddSubModular : Prop :=
  ∀ n x y : Nat, 1 ≤ n → x < 2 ^ n → y < 2 ^ n →
    ((2 : Int) ^ n ∣ fxVal n (fxAdd n x y) - (fxVal n x + fxVal n y)) ∧
    ((2 : Int) ^ n ∣ fxVal n (fxSub n x y) - (fxVal n x - fxVal n y)) ∧
    (-(2 : Int) ^ (n - 1) ≤ fxVal n x + fxVal n y → fxVal n x + fxVal n y < 2 ^ (n - 1) →
      fxVal n (fxAdd n x y) = fxVal n x + fxVal n y) ∧
    (-(2 : Int) ^ (n - 1) ≤ fxVal n x - fxVal n y → fxVal n x - fxVal n y < 2 ^ (n - 1) →
      fxVal n (fxSub n x y) = fxVal n x - fxVal n y)

/-- Multiplication and division at every sign combination and at zero: the magnitude is floored, the sign is the
exclusive or, and the signed result wraps (40_fixed_arith.md R118, R119). -/
def Obligations.FxMulDivSigns : Prop :=
  ∀ a b x y : Nat, 1 ≤ a → 1 ≤ b → x < 2 ^ (a + b) → y < 2 ^ (a + b) →
    let n := a + b
    let t := (fxVal n x).natAbs * (fxVal n y).natAbs / 2 ^ b
    let u := (fxVal n x).natAbs * 2 ^ b / (fxVal n y).natAbs
    ((fxVal n x < 0 ↔ fxVal n y < 0) → fxMul a b x y = fxNormalize n t) ∧
    (¬ (fxVal n x < 0 ↔ fxVal n y < 0) → fxMul a b x y = fxNormalize n (-(t : Int))) ∧
    (x = 0 ∨ y = 0 → fxMul a b x y = 0) ∧
    (0 < t → t < 2 ^ (n - 1) → (fxHasSign n (fxMul a b x y) = true ↔ ¬ (fxVal n x < 0 ↔ fxVal n y < 0))) ∧
    (t = 0 → fxMul a b x y = 0) ∧
    (y ≠ 0 → (fxVal n x < 0 ↔ fxVal n y < 0) → fxDiv a b x y = fxNormalize n u) ∧
    (y ≠ 0 → ¬ (fxVal n x < 0 ↔ fxVal n y < 0) → fxDiv a b x y = fxNormalize n (-(u : Int))) ∧
    (y ≠ 0 → x = 0 → fxDiv a b x y = 0)

/-- The fraction digits: the default rounds half up; the three settings of `FX_TIE` differ only on a tie, which needs
`b ≥ 4`; for `b ≤ 3` the quotient is exact (41_fixed_render.md R132). -/
def Obligations.FxRoundingByTie : Prop :=
  ∀ b fr : Nat, 1 ≤ b → fr < 2 ^ b →
    roundScaled .up (fr * 1000) b = (fr * 1000 + 2 ^ (b - 1)) / 2 ^ b ∧
    roundScaled .up (fr * 1000) b ≤ 1000 ∧
    (fr * 1000 % 2 ^ b ≠ 2 ^ (b - 1) → ∀ t, roundScaled t (fr * 1000) b = roundScaled .up (fr * 1000) b) ∧
    (fr * 1000 % 2 ^ b = 2 ^ (b - 1) →
      4 ≤ b ∧ roundScaled .down (fr * 1000) b = fr * 1000 / 2 ^ b ∧
      roundScaled .up (fr * 1000) b = fr * 1000 / 2 ^ b + 1 ∧
      roundScaled .even (fr * 1000) b % 2 = 0 ∧
      (roundScaled .even (fr * 1000) b = fr * 1000 / 2 ^ b ∨
        roundScaled .even (fr * 1000) b = fr * 1000 / 2 ^ b + 1)) ∧
    (b ≤ 3 → fr * 1000 % 2 ^ b = 0)

/-- The decimal rendering, whole: with `N` the magnitude in thousandths, rounded, the text is a minus sign exactly when
the number is negative and `N` is not 0, then `N / 1000` in decimal, a point, and the three digits of `N mod 1000`
(41_fixed_render.md R130, R131, R133, R134, R136). Under the default `FX_TIE = up`, `N` is the half-up rounding. -/
def Obligations.FxRenderWhole : Prop :=
  ∀ (t : FxTie) (a b v : Nat), 1 ≤ a → 1 ≤ b → v < 2 ^ (a + b) →
    let mag := (fxVal (a + b) v).natAbs
    let N := mag / 2 ^ b * 1000 + roundScaled t (mag % 2 ^ b * 1000) b
    fxRender t a b v =
      (if fxVal (a + b) v < 0 ∧ N ≠ 0 then ascii ['-'] else []) ++ dec (N / 1000) ++ ascii ['.'] ++
        [digitByte (N / 100 % 10), digitByte (N / 10 % 10), digitByte (N % 10)] ∧
    (t = .up → N = (mag * 1000 + 2 ^ (b - 1)) / 2 ^ b)

/-- The most negative pattern prints as a minus sign, `2^(a-1)` in decimal, and `.000`; the three texts of the rule
(41_fixed_render.md R138). -/
def Obligations.FxMostNegativeText : Prop :=
  (∀ (t : FxTie) (a b : Nat), 1 ≤ a → 1 ≤ b →
    fxRender t a b (2 ^ (a + b - 1)) = ascii ['-'] ++ dec (2 ^ (a - 1)) ++ ascii ['.', '0', '0', '0']) ∧
  (∀ t : FxTie, fxRender t 4 4 0x80 = ascii ['-', '8', '.', '0', '0', '0'] ∧
    fxRender t 16 16 0xFFFFFFFF = ascii ['0', '.', '0', '0', '0'] ∧
    fxRender t 16 16 0xFFFFFFDF = ascii ['-', '0', '.', '0', '0', '1'])

/-- A fixed-point text is 5 to 15 bytes long, and the rule's own texts meet both bounds (41_fixed_render.md R137). -/
def Obligations.FxTextLength : Prop :=
  (∀ (t : FxTie) (a b v : Nat), 1 ≤ a → 1 ≤ b → a + b ≤ 32 → v < 2 ^ (a + b) →
    5 ≤ (fxRender t a b v).length ∧ (fxRender t a b v).length ≤ 15) ∧
  (∀ t : FxTie,
    fxRender t 31 1 0x80000000 = ascii ['-', '1', '0', '7', '3', '7', '4', '1', '8', '2', '4', '.', '0', '0', '0'] ∧
    fxRender t 4 4 0 = ascii ['0', '.', '0', '0', '0'])

/-- The numeral notations: `dec(k)` reads back as `k`, holds decimal digits only and has no leading zero; `hex_D(k)` has
`D` lowercase digits and reads back as `k` for `k < 16^D` (00_scope.md R12). -/
def Obligations.NumeralsReadBack : Prop :=
  (∀ k : Nat, readDecimal (dec k) = k ∧ (∀ c ∈ dec k, 0x30 ≤ c.toNat ∧ c.toNat ≤ 0x39) ∧
    (k ≠ 0 → (dec k).head? ≠ some (digitByte 0)) ∧ dec 0 = [digitByte 0]) ∧
  (∀ D k : Nat, k < 16 ^ D → readHex (hexDigitsOf D k) = k ∧ (hexDigitsOf D k).length = D ∧
    ∀ c ∈ hexDigitsOf D k, (0x30 ≤ c.toNat ∧ c.toNat ≤ 0x39) ∨ (0x61 ≤ c.toNat ∧ c.toNat ≤ 0x66))

/-! ## The floating units -/

/-- A pattern is its sign bit, its exponent field and its mantissa field, from the top bit down
(42_float_common.md R150). -/
def Obligations.FloatFieldsOfPattern : Prop :=
  ∀ f : BF, f.IsUnit → ∀ x, f.Pattern x →
    x = (if f.sign x then 2 ^ (f.width - 1) else 0) + f.expf x * 2 ^ f.m + f.frac x ∧
      f.expf x ≤ f.expMax ∧ f.frac x < 2 ^ f.m

/-- Exactly one of the five classes holds of every pattern: `classify` names it by the two fields, and each predicate is
true of its own class alone (42_float_common.md R156). -/
def Obligations.ExactlyOneClass : Prop :=
  ∀ f : BF, f.IsUnit → ∀ x,
    ((f.classify x = .zero ↔ f.expf x = 0 ∧ f.frac x = 0) ∧
      (f.classify x = .denormal ↔ f.expf x = 0 ∧ f.frac x ≠ 0) ∧
      (f.classify x = .normal ↔ 0 < f.expf x ∧ f.expf x < f.expMax) ∧
      (f.classify x = .infinity ↔ f.expf x = f.expMax ∧ f.frac x = 0) ∧
      (f.classify x = .nan ↔ f.expf x = f.expMax ∧ f.frac x ≠ 0)) ∧
    (f.isZero x = true ↔ f.classify x = .zero) ∧ (f.isDenormal x = true ↔ f.classify x = .denormal) ∧
    (f.isNormal x = true ↔ f.classify x = .normal) ∧ (f.isInfinity x = true ↔ f.classify x = .infinity) ∧
    (f.isNan x = true ↔ f.classify x = .nan)

/-- Any operation with a NaN operand returns the canonical NaN, whatever the other operand is (43_float_addsub.md R180,
R190, 44_float_muldiv.md R210, R220). -/
def Obligations.NanOperandGivesCanonicalNan : Prop :=
  ∀ f : BF, f.IsUnit → ∀ (dii : DivInfInf) (q x y : Nat), f.classify x = .nan ∨ f.classify y = .nan →
    f.add q x y = q ∧ f.sub q x y = q ∧ f.mul q x y = q ∧ f.div dii q x y = q

/-- Add and subtract with an infinite operand and no NaN (43_float_addsub.md R181, R191). -/
def Obligations.AddSubInfinities : Prop :=
  ∀ f : BF, f.IsUnit → ∀ q x y : Nat, f.classify x ≠ .nan → f.classify y ≠ .nan →
    (f.classify x = .infinity → f.classify y = .infinity → f.sign x = f.sign y →
      f.add q x y = x ∧ f.sub q x y = q) ∧
    (f.classify x = .infinity → f.classify y = .infinity → f.sign x ≠ f.sign y →
      f.add q x y = q ∧ f.sub q x y = x) ∧
    (f.classify x = .infinity → f.classify y ≠ .infinity → f.add q x y = x ∧ f.sub q x y = x) ∧
    (f.classify x ≠ .infinity → f.classify y = .infinity → f.add q x y = y ∧ f.sub q x y = f.negate y)

/-- Add and subtract of finite operands reduce to the magnitude operations by their signs (43_float_addsub.md R182,
R192). -/
def Obligations.AddSubSignTables : Prop :=
  ∀ f : BF, ∀ q x y : Nat, f.Finite x → f.Finite y →
    (f.sign x = false → f.sign y = false →
      f.add q x y = f.addmag (f.abs x) (f.abs y) ∧ f.sub q x y = f.submag (f.abs x) (f.abs y)) ∧
    (f.sign x = true → f.sign y = true →
      f.add q x y = f.negate (f.addmag (f.abs x) (f.abs y)) ∧
      f.sub q x y = f.negate (f.submag (f.abs x) (f.abs y))) ∧
    (f.sign x = false → f.sign y = true →
      f.add q x y = f.submag (f.abs x) (f.abs y) ∧ f.sub q x y = f.addmag (f.abs x) (f.abs y)) ∧
    (f.sign x = true → f.sign y = false →
      f.add q x y = f.negate (f.submag (f.abs x) (f.abs y)) ∧
      f.sub q x y = f.negate (f.addmag (f.abs x) (f.abs y)))

/-- `sub(x, y) = add(x, negate(y))` for every pair of patterns (43_float_addsub.md R194). -/
def Obligations.SubIsAddOfNegate : Prop :=
  ∀ f : BF, f.IsUnit → ∀ q x y : Nat, f.Pattern x → f.Pattern y → f.sub q x y = f.add q x (f.negate y)

/-- Negating both operands negates the result, signed zeros included, for all finite operands and also for infinite ones
except where the result is the canonical NaN (43_float_addsub.md R195). -/
def Obligations.SignReductionConsistency : Prop :=
  ∀ f : BF, f.IsUnit → ∀ q x y : Nat, f.Pattern x → f.Pattern y → f.classify x ≠ .nan → f.classify y ≠ .nan →
    (¬ (f.classify x = .infinity ∧ f.classify y = .infinity ∧ f.sign x ≠ f.sign y) →
      f.add q x y = f.negate (f.add q (f.negate x) (f.negate y))) ∧
    (¬ (f.classify x = .infinity ∧ f.classify y = .infinity ∧ f.sign x = f.sign y) →
      f.sub q x y = f.negate (f.sub q (f.negate x) (f.negate y)))

/-- The signed zeros that add and subtract produce; that a zero result comes from two zeros or from exact cancellation
alone (equal magnitudes, of unlike signs for add and of like signs for sub); and that adding a zero to a non-zero finite
value returns that value (43_float_addsub.md R196). -/
def Obligations.SignedZerosOfAddSub : Prop :=
  ∀ f : BF, f.IsUnit → ∀ q : Nat,
    let negZero := 2 ^ (f.width - 1)
    (∀ a, a < f.inf →
      f.add q a (f.negate a) = 0 ∧ f.sub q a a = 0 ∧
      f.add q (f.negate a) a = negZero ∧ f.sub q (f.negate a) (f.negate a) = negZero) ∧
    (f.add q 0 0 = 0 ∧ f.sub q 0 negZero = 0 ∧ f.add q negZero negZero = negZero ∧ f.sub q negZero 0 = negZero) ∧
    (∀ x, f.Pattern x → f.Finite x → f.isZero x = false →
      f.add q x 0 = x ∧ f.add q 0 x = x ∧ f.add q x negZero = x ∧ f.add q negZero x = x) ∧
    (∀ x y, f.Pattern x → f.Pattern y → f.Finite x → f.Finite y → f.isZero (f.add q x y) = true →
      (f.isZero x = true ∧ f.isZero y = true) ∨ (f.abs x = f.abs y ∧ f.sign x ≠ f.sign y)) ∧
    (∀ x y, f.Pattern x → f.Pattern y → f.Finite x → f.Finite y → f.isZero (f.sub q x y) = true →
      (f.isZero x = true ∧ f.isZero y = true) ∨ (f.abs x = f.abs y ∧ f.sign x = f.sign y))

/-- The table of classes of multiplication; `s` is the exclusive or of the signs (44_float_muldiv.md R217). -/
def Obligations.MulClassTable : Prop :=
  ∀ f : BF, f.IsUnit → ∀ q x y : Nat,
    let s := f.sign x != f.sign y
    (f.classify x = .nan ∨ f.classify y = .nan → f.mul q x y = q) ∧
    (f.classify x = .infinity ∧ f.classify y = .zero ∨ f.classify x = .zero ∧ f.classify y = .infinity →
      f.mul q x y = q) ∧
    (f.classify x = .infinity ∧ f.classify y ≠ .nan ∧ f.classify y ≠ .zero ∨
      f.classify y = .infinity ∧ f.classify x ≠ .nan ∧ f.classify x ≠ .zero → f.mul q x y = f.withSign s f.inf) ∧
    (f.classify x = .zero ∧ f.classify y ≠ .nan ∧ f.classify y ≠ .infinity ∨
      f.classify y = .zero ∧ f.classify x ≠ .nan ∧ f.classify x ≠ .infinity → f.mul q x y = f.withSign s 0) ∧
    ((f.classify x = .denormal ∨ f.classify x = .normal) → (f.classify y = .denormal ∨ f.classify y = .normal) →
      f.mul q x y = f.withSign s (f.construct ((f.unpack (f.abs x)).1 + (f.unpack (f.abs y)).1 - f.m)
        ((f.unpack (f.abs x)).2 * (f.unpack (f.abs y)).2)))

/-- The table of classes of division; `s` is the exclusive or of the signs (44_float_muldiv.md R228). -/
def Obligations.DivClassTable : Prop :=
  ∀ f : BF, f.IsUnit → ∀ (dii : DivInfInf) (q x y : Nat),
    let s := f.sign x != f.sign y
    (f.classify x = .nan ∨ f.classify y = .nan → f.div dii q x y = q) ∧
    (f.classify x = .zero → f.classify y = .zero → f.div dii q x y = q) ∧
    (f.classify x = .infinity → f.classify y = .infinity →
      f.div dii q x y = match dii with
        | .nan => q
        | .inf => f.withSign s f.inf
        | .zero => f.withSign s 0) ∧
    (f.classify x = .infinity → f.classify y ≠ .nan → f.classify y ≠ .infinity →
      f.div dii q x y = f.withSign s f.inf) ∧
    (f.classify y = .zero → f.classify x ≠ .nan → f.classify x ≠ .zero → f.div dii q x y = f.withSign s f.inf) ∧
    (f.classify x = .zero → f.classify y ≠ .nan → f.classify y ≠ .zero → f.div dii q x y = f.withSign s 0) ∧
    (f.classify y = .infinity → f.classify x ≠ .nan → f.classify x ≠ .infinity →
      f.div dii q x y = f.withSign s 0) ∧
    ((f.classify x = .denormal ∨ f.classify x = .normal) → (f.classify y = .denormal ∨ f.classify y = .normal) →
      f.div dii q x y = f.withSign s (f.construct ((f.unpack (f.abs x)).1 - (f.unpack (f.abs y)).1)
        ((f.unpack (f.abs x)).2 * 2 ^ f.m / (f.unpack (f.abs y)).2)))

/-- Multiplication is commutative bit for bit (44_float_muldiv.md R218). -/
def Obligations.MulCommutes : Prop :=
  ∀ f : BF, ∀ q x y : Nat, f.mul q x y = f.mul q y x

/-- What `construct` computes: the number `M * 2^(exp - m)` truncated to the format (42_float_common.md R172, R166). -/
def Obligations.ConstructTruncates : Prop :=
  ∀ f : BF, f.IsUnit → ∀ (exp : Int) (M : Nat), f.IsTruncation ((M : ℚ) * pow2 (exp - f.m)) (f.construct exp M)

/-- Same-sign addition, and subtraction of opposite signs, give the exact sum of the magnitudes truncated to the format,
with the sign of `x` (43_float_addsub.md R188). -/
def Obligations.SameSignAddTruncates : Prop :=
  ∀ f : BF, f.IsUnit → ∀ q x y : Nat, f.Pattern x → f.Pattern y → f.Finite x → f.Finite y →
    (f.sign x = f.sign y → ∃ g, f.add q x y = f.withSign (f.sign x) g ∧
      f.IsTruncation (f.magnitude x + f.magnitude y) g) ∧
    (f.sign x ≠ f.sign y → ∃ g, f.sub q x y = f.withSign (f.sign x) g ∧
      f.IsTruncation (f.magnitude x + f.magnitude y) g)

/-- Subtraction of magnitudes with `b ≤ a`: the subtrahend is cut to the unit of the larger operand and the difference is
then exact; it is never below the true difference, exceeds it by less than that unit, and is exact for equal true
exponents; the other order gives its negation (43_float_addsub.md R186, R189). -/
def Obligations.MagnitudeSubtraction : Prop :=
  ∀ f : BF, f.IsUnit → ∀ a b : Nat, a < f.inf → b ≤ a →
    f.submag a b < f.inf ∧
    f.magnitude (f.submag a b) =
      (((f.unpack a).2 - (f.unpack b).2 / 2 ^ ((f.unpack a).1 - (f.unpack b).1).toNat : Nat) : ℚ) *
        pow2 ((f.unpack a).1 - f.m) ∧
    f.magnitude a - f.magnitude b ≤ f.magnitude (f.submag a b) ∧
    f.magnitude (f.submag a b) - (f.magnitude a - f.magnitude b) < pow2 ((f.unpack a).1 - f.m) ∧
    ((f.unpack a).1 = (f.unpack b).1 → f.magnitude (f.submag a b) = f.magnitude a - f.magnitude b) ∧
    (b < a → f.submag b a = f.negate (f.submag a b))

/-- The product of two denormal or normal operands is the exact product truncated to the format, with the exclusive or of
the signs (44_float_muldiv.md R216). -/
def Obligations.MulTruncatesExactProduct : Prop :=
  ∀ f : BF, f.IsUnit → ∀ q x y : Nat, f.Pattern x → f.Pattern y → f.Finite x → f.Finite y →
    f.isZero x = false → f.isZero y = false →
    ∃ g, f.mul q x y = f.withSign (f.sign x != f.sign y) g ∧ f.IsTruncation (f.magnitude x * f.magnitude y) g

/-- The quotient of two denormal or normal operands is never above the true quotient in magnitude, and it is the true
quotient truncated to the format when the integer quotient has at least `m + 1` bits (44_float_muldiv.md R227). -/
def Obligations.DivNeverAboveQuotient : Prop :=
  ∀ f : BF, f.IsUnit → ∀ (dii : DivInfInf) (q x y : Nat), f.Pattern x → f.Pattern y → f.Finite x → f.Finite y →
    f.isZero x = false → f.isZero y = false →
    ∃ g, f.div dii q x y = f.withSign (f.sign x != f.sign y) g ∧ g ≤ f.inf ∧
      (g = f.inf → pow2 (f.emax + 1) ≤ f.magnitude x / f.magnitude y) ∧
      (g ≠ f.inf → f.magnitude g ≤ f.magnitude x / f.magnitude y) ∧
      (2 ^ f.m ≤ (f.unpack x).2 * 2 ^ f.m / (f.unpack y).2 →
        f.IsTruncation (f.magnitude x / f.magnitude y) g)

/-- `less_than` is the strict order of the numbers that two finite patterns stand for (42_float_common.md R163). -/
def Obligations.LessThanIsValueOrder : Prop :=
  ∀ f : BF, f.IsUnit → ∀ x y : Nat, f.Pattern x → f.Pattern y → f.Finite x → f.Finite y →
    (f.lessThan x y = true ↔ f.value x < f.value y)

/-- The texts of NaNs, infinities and zeros (45_float_render.md R241, R242, R243). -/
def Obligations.RenderSpecialValues : Prop :=
  ∀ x : Nat,
    (half.classify x = .nan → half.render x = ascii ['n', 'a', 'n']) ∧
    (single.classify x = .nan → single.render x = ascii ['n', 'a', 'n']) ∧
    (half.classify x = .infinity → half.render x =
      if half.sign x then ascii ['-', 'i', 'n', 'f'] else ascii ['i', 'n', 'f']) ∧
    (single.classify x = .infinity → single.render x =
      if single.sign x then ascii ['-', 'i', 'n', 'f'] else ascii ['i', 'n', 'f']) ∧
    (half.classify x = .zero → half.render x =
      (if half.sign x then ascii ['-'] else []) ++ ascii ['0', 'x', '0', '.', '0', '0', '0', 'p', '+', '0']) ∧
    (single.classify x = .zero → single.render x =
      (if single.sign x then ascii ['-'] else []) ++
        ascii ['0', 'x', '0', '.', '0', '0', '0', '0', '0', '0', 'p', '+', '0'])

/-- The text of a denormal or normal value shows that value exactly: `1.F * 2^ex` with `HEXDIGITS` hexadecimal fraction
digits, a signed decimal exponent, and a minus sign for a negative value (45_float_render.md R245 to R249). -/
def Obligations.RenderDenotesValue : Prop :=
  ∀ f : BF, f.IsUnit → ∀ x : Nat, f.Pattern x → f.Finite x → f.isZero x = false →
    ∃ (F : Nat) (ex : Int), F < 16 ^ f.hexDigits ∧
      f.magnitude x = (1 + (F : ℚ) / 16 ^ f.hexDigits) * pow2 ex ∧
      f.render x = (if f.sign x then ascii ['-'] else []) ++ ascii ['0', 'x', '1', '.'] ++
        hexDigitsOf f.hexDigits F ++ ascii ['p'] ++ (if 0 ≤ ex then ascii ['+'] else ascii ['-']) ++ dec ex.natAbs

/-- Two patterns of one format that are no NaNs and have the same text are the same pattern; all NaNs have one text
(45_float_render.md R253). -/
def Obligations.RenderInjective : Prop :=
  ∀ f : BF, f.IsUnit →
    (∀ x y : Nat, f.Pattern x → f.Pattern y → f.classify x ≠ .nan → f.classify y ≠ .nan →
      f.render x = f.render y → x = y) ∧
    (∀ x : Nat, f.classify x = .nan → f.render x = ascii ['n', 'a', 'n'])

/-- The lengths of the hexadecimal texts, and the rule's own texts that meet the bounds (45_float_render.md R250). -/
def Obligations.RenderLength : Prop :=
  (∀ x, half.Pattern x → 3 ≤ (half.render x).length ∧ (half.render x).length ≤ 12) ∧
  (∀ x, single.Pattern x → 3 ≤ (single.render x).length ∧ (single.render x).length ≤ 16) ∧
  half.render 0x8001 = ascii ['-', '0', 'x', '1', '.', '0', '0', '0', 'p', '-', '2', '4'] ∧
  single.render 0x80000001 =
    ascii ['-', '0', 'x', '1', '.', '0', '0', '0', '0', '0', '0', 'p', '-', '1', '4', '9'] ∧
  half.render 0x7C00 = ascii ['i', 'n', 'f'] ∧ single.render 0x7F800000 = ascii ['i', 'n', 'f'] ∧
  half.render 0x7E00 = ascii ['n', 'a', 'n'] ∧ single.render 0x7FC00000 = ascii ['n', 'a', 'n']

/-- `H.ID` and `S.ID` pass the operand through unchanged, with its class and its text (45_float_render.md R255, R256). -/
def Obligations.FloatIdResults : Prop :=
  ∀ (s : State) (req : Request) (rest : List Request), s.requests = req :: rest →
    (req.x.toNat < 2 ^ 16 →
      exec .hId s = .next (s.answered rest
        (.ok req.x (classCode (half.classify req.x.toNat)) (half.render req.x.toNat)))) ∧
    exec .sId s = .next (s.answered rest
      (.ok req.x (classCode (single.classify req.x.toNat)) (single.render req.x.toNat)))

/-- `H.ADD`, `H.SUB`, `S.ADD` and `S.SUB` answer with the result of `add` or `sub` at the unit's parameters, its class and
its text, and never fail (43_float_addsub.md R200 to R203). -/
def Obligations.FloatAddSubResults : Prop :=
  ∀ (s : State) (req : Request) (rest : List Request), s.requests = req :: rest →
    (req.x.toNat < 2 ^ 16 → req.y.toNat < 2 ^ 16 →
      exec .hAdd s = .next (s.answered rest
        (floatResponse half (half.add s.params.qnanH.toNat req.x.toNat req.y.toNat))) ∧
      exec .hSub s = .next (s.answered rest
        (floatResponse half (half.sub s.params.qnanH.toNat req.x.toNat req.y.toNat)))) ∧
    exec .sAdd s = .next (s.answered rest
      (floatResponse single (single.add s.params.qnanS.toNat req.x.toNat req.y.toNat))) ∧
    exec .sSub s = .next (s.answered rest
      (floatResponse single (single.sub s.params.qnanS.toNat req.x.toNat req.y.toNat)))

/-- `H.MUL`, `H.DIV`, `S.MUL` and `S.DIV` answer with the result of `mul` or `div` at the unit's parameters, its class and
its text, and never fail, a zero divisor included (44_float_muldiv.md R230 to R233). -/
def Obligations.FloatMulDivResults : Prop :=
  ∀ (s : State) (req : Request) (rest : List Request), s.requests = req :: rest →
    (req.x.toNat < 2 ^ 16 → req.y.toNat < 2 ^ 16 →
      exec .hMul s = .next (s.answered rest
        (floatResponse half (half.mul s.params.qnanH.toNat req.x.toNat req.y.toNat))) ∧
      exec .hDiv s = .next (s.answered rest
        (floatResponse half (half.div s.params.divInfInf s.params.qnanH.toNat req.x.toNat req.y.toNat)))) ∧
    exec .sMul s = .next (s.answered rest
      (floatResponse single (single.mul s.params.qnanS.toNat req.x.toNat req.y.toNat))) ∧
    exec .sDiv s = .next (s.answered rest
      (floatResponse single (single.div s.params.divInfInf s.params.qnanS.toNat req.x.toNat req.y.toNat)))

/-- A half-precision operand that is read and does not fit 16 bits is refused; `Y` of `H.ID` is not read
(30_encoding.md R69, R71). -/
def Obligations.WideHalfOperandRefused : Prop :=
  ∀ (s : State) (req : Request) (rest : List Request), s.requests = req :: rest →
    (2 ^ 16 ≤ req.x.toNat → ∀ i ∈ [Instr.hId, .hAdd, .hSub, .hMul, .hDiv], exec i s = .refused .wideOperand) ∧
    (2 ^ 16 ≤ req.y.toNat → ∀ i ∈ [Instr.hAdd, .hSub, .hMul, .hDiv], exec i s = .refused .wideOperand) ∧
    (req.x.toNat < 2 ^ 16 → ∃ t, exec .hId s = .next t)

/-- The port `Y` of an identity request is not read: its content does not affect what the request does
(30_encoding.md R71). -/
def Obligations.IdentityIgnoresY : Prop :=
  ∀ (s : State) (req : Request) (rest : List Request) (y : Word) (a b : Nat), s.requests = req :: rest →
    ∀ i ∈ [Instr.fxId a b, .hId, .sId],
      exec i { s with requests := { req with y := y } :: rest } = exec i s

/-- The fields of an OK response: the result is zero-extended from its format, and the class code is that of the result,
or 0 for FX (30_encoding.md R74, R75). -/
def Obligations.ResponseFieldsMatch : Prop :=
  ∀ (i : Instr) (s t : State) (r : Word) (c : BitVec 3) (x : List Byte),
    exec i s = .next t → t.responses = s.responses ++ [.ok r c x] → FieldsMatch r c i

/-- The line written for a well-formed operation and its port words reads back as the request of that operation: its
command word, `X`, and `Y` where the operation reads it (30_encoding.md R80, R61; `Y` of an `ID` line holds 0, log
entry 7). -/
def Obligations.AssemblyLineReadsBack : Prop :=
  ∀ i : Instr, i.WellFormed → ∀ x y : Word,
    assemble (assemblyLine i x y) = some { cmd := encode i, x := x, y := if usesY i then y else 0#32 }

/-- The codes of a response: `STATUS` 0, 1 or 2 and never 3, `RCLASS` 0 to 4 by class, `TEXT` and its length in five bits;
that a failed response has no other field is the model's form of fields that carry no value, log entry 6, DESIGN CHOICE
(30_encoding.md R73, R75, R76, 10_state.md R29). -/
def Obligations.ResponseCodes : Prop :=
  (∀ (r : Word) (c : BitVec 3) (t : List Byte),
    (Response.ok r c t).status = 0#2 ∧ (Response.ok r c t).result = some r ∧ (Response.ok r c t).rclass = some c ∧
      (Response.ok r c t).text = some t ∧ (t.length ≤ 16 → ((Response.ok r c t).tlen.map BitVec.toNat) = some t.length)) ∧
  ((Response.fail .divByZero).status = 1#2 ∧ (Response.fail .formatOverflow).status = 2#2) ∧
  (∀ r : Response, r.status ≠ 3#2) ∧
  (∀ f : Failure, (Response.fail f).result = none ∧ (Response.fail f).rclass = none ∧ (Response.fail f).text = none ∧
    (Response.fail f).tlen = none) ∧
  (classCode .zero = 0#3 ∧ classCode .denormal = 1#3 ∧ classCode .normal = 2#3 ∧ classCode .infinity = 3#3 ∧
    classCode .nan = 4#3)
end

