-- ==== Sys2Proof/Laws/Assembler.lean ====
section
/-! SUPPORT. Reading the parts and numerals of a line (30_encoding.md R80). -/

namespace Sys2Proof.Machine

/-- Reading a numeral part by part. -/
theorem numeralFrom_append (base : Nat) : ∀ (t u : List Byte) (acc v : Nat), numeralFrom base acc t = some v →
   numeralFrom base acc (t ++ u) = numeralFrom base v u := by
  intro t
  induction t with
  | nil => intro u acc v h; simp [numeralFrom] at h; simp [h]
  | cons c t ih =>
    intro u acc v h
    simp only [List.cons_append, numeralFrom] at h ⊢
    cases hd : digitNamed c with
    | none => simp [hd] at h
    | some d =>
      simp only [hd] at h ⊢
      split_ifs at h ⊢ with hb
      exact ih u _ v h

/-- A digit reads back. -/
theorem digitNamed_digit {d : Nat} (h : d < 16) : digitNamed (digitByte d) = some d := by revert d; decide

/-- A text has at least one part. -/
theorem split_ne (sep : Byte) : ∀ t, splitAtByte sep t ≠ [] := by
  intro t; cases t with
  | nil => simp [splitAtByte]
  | cons c t => unfold splitAtByte; split_ifs; · simp
                split <;> simp

/-- The parts of a text around its first separator. -/
theorem split_nosep {sep : Byte} : ∀ (t u : List Byte), (∀ c ∈ t, c ≠ sep) → 
    splitAtByte sep (t ++ sep :: u) = t :: splitAtByte sep u ∧ splitAtByte sep t = [t] := by
  intro t
  induction t with
  | nil => intro u _; simp [splitAtByte]
  | cons c t ih =>
    intro u h
    obtain ⟨h1, h2⟩ := ih u (fun d hd => h d (by simp [hd]))
    have hc := h c (by simp)
    constructor
    · rw [List.cons_append, splitAtByte, if_neg hc, h1]
    · rw [splitAtByte, if_neg hc, h2]

end Sys2Proof.Machine
end

