-- ==== Sys2Proof/Laws/Decode.lean ====
section
/-! SUPPORT. The fields of a command word, and everything a word that decodes can be (30_encoding.md R61, R72). -/

namespace Sys2Proof

open Machine

/-- The fields of a command word built from fields that fit. -/
theorem cmdWord_fields {fmt op a b : Nat} (hf : fmt < 4) (ho : op < 8) (ha : a < 64) (hb : b < 64) :
    cmdFields (cmdWord fmt op a b) = { fmt := fmt, op := op, rm := 0, a := a, b := b, rsvd7 := 0, rsvd14 := 0, rsvd22 := 0 } := by
  have hv : (cmdWord fmt op a b).toNat = fmt + op * 4 + a * 256 + b * 65536 := by
    simp only [cmdWord, BitVec.toNat_ofNat]; omega
  simp only [cmdFields, hv, slice, CmdFields.mk.injEq]
  omega

/-- A command word is the weighted sum of its fields. -/
theorem cmdFields_word (w : Word) : w.toNat = (cmdFields w).fmt + (cmdFields w).op * 4 + (cmdFields w).rm * 32 + (cmdFields w).rsvd7 * 128
   + (cmdFields w).a * 256 + (cmdFields w).rsvd14 * 16384 + (cmdFields w).b * 65536 + (cmdFields w).rsvd22 * 4194304 := by
  have := w.isLt
  simp only [cmdFields, slice]
  omega

/-- The ranges of the fields. -/
theorem cmdFields_lt (w : Word) : (cmdFields w).fmt < 4 ∧ (cmdFields w).op < 8 ∧ (cmdFields w).a < 64 ∧ (cmdFields w).b < 64 := by
  simp only [cmdFields, slice]; omega

/-- The field of the claims is the field of the decoder. -/
theorem cmdField_eq (w : Word) (hi lo : Nat) : cmdField w hi lo = slice w.toNat hi lo := by
  simp [cmdField, slice, BitVec.extractLsb, BitVec.extractLsb', BitVec.toNat_ofNat, Nat.shiftRight_eq_div_pow]

/-- Everything a command word that decodes can be. -/
theorem decode_ok {w : Word} {i : Instr} (h : decode w = .ok i) :
    ∃ fmt op a b, fmt < 3 ∧ op < 5 ∧ a < 64 ∧ b < 64 ∧ (fmt ≠ 0 → a = 0 ∧ b = 0) ∧ w = cmdWord fmt op a b ∧
     (cmdFields w).a = a ∧ (cmdFields w).b = b ∧
      i = (match fmt, op with
        | 0, 0 => .fxId a b | 0, 1 => .fxAdd a b | 0, 2 => .fxSub a b | 0, 3 => .fxMul a b | 0, _ => .fxDiv a b
        | 1, 0 => .hId | 1, 1 => .hAdd | 1, 2 => .hSub | 1, 3 => .hMul | 1, _ => .hDiv
        | _, 0 => .sId | _, 1 => .sAdd | _, 2 => .sSub | _, 3 => .sMul | _, _ => .sDiv) := by
  have hw := cmdFields_word w
  obtain ⟨h1, h2, h3, h4⟩ := cmdFields_lt w
  unfold decode decodeFields at h
  split at h; · cases h
  split at h; · cases h
  split at h; · cases h
  split at h; · cases h
  split at h; · cases h
  rename_i c1 c2 c3 c4 c5
  refine ⟨(cmdFields w).fmt, (cmdFields w).op, (cmdFields w).a, (cmdFields w).b, by omega, by omega, h3, h4, by omega, ?_, rfl, rfl, ?_⟩
  · apply BitVec.eq_of_toNat_eq
    simp only [cmdWord, BitVec.toNat_ofNat]
    have := w.isLt
    omega
  · have ho : (cmdFields w).op = 0 ∨ (cmdFields w).op = 1 ∨ (cmdFields w).op = 2 ∨ (cmdFields w).op = 3 ∨ (cmdFields w).op = 4 := by omega
    have hf : (cmdFields w).fmt = 0 ∨ (cmdFields w).fmt = 1 ∨ (cmdFields w).fmt = 2 := by omega
    rcases hf with hf | hf | hf <;> rcases ho with ho | ho | ho | ho | ho <;>
      simp [hf, ho, fxOperation, hOperation, sOperation] at h ⊢ <;> exact h.symm

end Sys2Proof
end

