-- ==== Sys2Proof/Laws/State.lean ====
section
/-! SUPPORT. One lemma per field of State and per update, so that no proof unfolds a record update. -/

namespace Sys2Proof.Machine

@[simp] theorem respond_params (r : Response) (s : State) : (respond r s).params = s.params := rfl

@[simp] theorem respond_requests (r : Response) (s : State) : (respond r s).requests = s.requests.tail := rfl

@[simp] theorem respond_responses (r : Response) (s : State) :
    (respond r s).responses = s.responses ++ [r] := rfl

@[simp] theorem answered_params (s : State) (rest : List Request) (r : Response) :
    (s.answered rest r).params = s.params := rfl

@[simp] theorem answered_requests (s : State) (rest : List Request) (r : Response) :
    (s.answered rest r).requests = rest := rfl

@[simp] theorem answered_responses (s : State) (rest : List Request) (r : Response) :
    (s.answered rest r).responses = s.responses ++ [r] := rfl

@[simp] theorem withFetchWord_params (s : State) (nbits w : Nat) :
    (s.withFetchWord nbits w).params = s.params := rfl

@[simp] theorem withFetchWord_responses (s : State) (nbits w : Nat) :
    (s.withFetchWord nbits w).responses = s.responses := rfl

@[simp] theorem reset_params : State.reset.params = defaultParams := rfl

@[simp] theorem reset_requests : State.reset.requests = [] := rfl

@[simp] theorem reset_responses : State.reset.responses = [] := rfl

/-- Responding to the request at the head is answering it, in the terms of the claims. -/
theorem respond_eq_answered {s : State} {req : Request} {rest : List Request} (h : s.requests = req :: rest)
    (r : Response) : respond r s = s.answered rest r := by
  simp [respond, State.answered, h]

/-- Two answers of one state are equal only when the responses are. -/
theorem answered_inj {s : State} {rest : List Request} {r r' : Response} :
    s.answered rest r = s.answered rest r' ↔ r = r' := by
  simp [State.answered]

end Sys2Proof.Machine
end

