-- ==== Sys2Proof/Laws/Ops.lean ====
section
/-! SUPPORT. What each shared operation of a step can do, said once: proofs cite these and do not unfold the operation. -/

namespace Sys2Proof.Machine

theorem withRequest_cons {s : State} {req : Request} {rest : List Request} (h : s.requests = req :: rest)
    (k : Request → StepOutcome) : withRequest s k = k req := by
  simp [withRequest, h]

theorem withRequest_nil {s : State} (h : s.requests = []) (k : Request → StepOutcome) :
    withRequest s k = .fault .noRequest := by
  simp [withRequest, h]

/-- An operation on the oldest request that answers had a request to answer. -/
theorem withRequest_next {s t : State} {k : Request → StepOutcome} (h : withRequest s k = .next t) :
    ∃ req rest, s.requests = req :: rest ∧ k req = .next t := by
  cases hr : s.requests with
  | nil => simp [withRequest_nil hr] at h
  | cons req rest => exact ⟨req, rest, rfl, by rwa [withRequest_cons hr] at h⟩

theorem raiseFailure_eq {s : State} {req : Request} {rest : List Request} (h : s.requests = req :: rest)
    (f : Failure) : raiseFailure f s = .next (s.answered rest (.fail f)) := by
  simp [raiseFailure, respond_eq_answered h]

/-- An FX request with `a + b > 32` takes FormatOverflow. -/
theorem fxRequest_overflow {a b : Nat} {s : State} {req : Request} {rest : List Request}
    (h : s.requests = req :: rest) (hab : 32 < a + b) (op : Nat → Nat → Except Failure Nat) :
    fxRequest a b op s = .next (s.answered rest (.fail .formatOverflow)) := by
  simp [fxRequest, withRequest_cons h, hab, raiseFailure_eq h]

/-- An FX request with `a = 0` or `b = 0` that is no FormatOverflow is refused. -/
theorem fxRequest_range {a b : Nat} {s : State} {req : Request} {rest : List Request}
    (h : s.requests = req :: rest) (hab : a + b ≤ 32) (h0 : a = 0 ∨ b = 0) (op : Nat → Nat → Except Failure Nat) :
    fxRequest a b op s = .refused .abRange := by
  have h1 : a < 1 ∨ b < 1 := by omega
  simp only [fxRequest, withRequest_cons h, if_neg (Nat.not_lt.mpr hab), if_pos h1]

/-- An FX request in the legal range answers with what its operation gives on the normalised operands. -/
theorem fxRequest_legal {a b : Nat} {s : State} {req : Request} {rest : List Request}
    (h : s.requests = req :: rest) (ha : 1 ≤ a) (hb : 1 ≤ b) (hab : a + b ≤ 32)
    (op : Nat → Nat → Except Failure Nat) :
    fxRequest a b op s = .next (s.answered rest
      (match op (fxOperand (a + b) req.x) (fxOperand (a + b) req.y) with
        | .error e => .fail e
        | .ok r => fxResponse s.params.fxTie a b r)) := by
  have h1 : ¬ (a < 1 ∨ b < 1) := by omega
  simp only [fxRequest, withRequest_cons h, if_neg (Nat.not_lt.mpr hab), if_neg h1]
  cases op (fxOperand (a + b) req.x) (fxOperand (a + b) req.y) <;>
    simp [raiseFailure_eq h, respond_eq_answered h]

/-- Everything an FX request can do when it answers: FormatOverflow, or in the legal range what its operation gives. -/
theorem fxRequest_next {a b : Nat} {op : Nat → Nat → Except Failure Nat} {s t : State}
    (h : fxRequest a b op s = .next t) :
    ∃ req rest, s.requests = req :: rest ∧
      ((32 < a + b ∧ t = s.answered rest (.fail .formatOverflow)) ∨
       (1 ≤ a ∧ 1 ≤ b ∧ a + b ≤ 32 ∧ t = s.answered rest
        (match op (fxOperand (a + b) req.x) (fxOperand (a + b) req.y) with
          | .error e => .fail e
          | .ok r => fxResponse s.params.fxTie a b r))) := by
  obtain ⟨req, rest, hr, -⟩ := withRequest_next h
  refine ⟨req, rest, hr, ?_⟩
  by_cases hov : 32 < a + b
  · rw [fxRequest_overflow hr hov] at h
    exact .inl ⟨hov, by simpa using h.symm⟩
  · by_cases h0 : a = 0 ∨ b = 0
    · rw [fxRequest_range hr (by omega) h0] at h
      simp at h
    · rw [fxRequest_legal hr (by omega) (by omega) (by omega)] at h
      exact .inr ⟨by omega, by omega, by omega, by simpa using h.symm⟩

theorem wideFor_half (w : Word) : wideFor half w = decide (2 ^ 16 ≤ w.toNat) := rfl

theorem wideFor_single (w : Word) : wideFor single w = false :=
  decide_eq_false (Nat.not_le.mpr w.isLt)

/-- A floating request whose operand fits answers; one whose operand is too wide is refused. -/
theorem floatUnary_cons {f : BF} {op : Nat → Nat} {s : State} {req : Request} {rest : List Request}
    (h : s.requests = req :: rest) :
    floatUnary f op s =
      if wideFor f req.x then .refused .wideOperand
      else .next (s.answered rest (floatResponse f (op req.x.toNat))) := by
  simp [floatUnary, withRequest_cons h, respond_eq_answered h, floatOperand]

theorem floatBinary_cons {f : BF} {op : Nat → Nat → Nat} {s : State} {req : Request} {rest : List Request}
    (h : s.requests = req :: rest) :
    floatBinary f op s =
      if wideFor f req.x || wideFor f req.y then .refused .wideOperand
      else .next (s.answered rest (floatResponse f (op req.x.toNat req.y.toNat))) := by
  simp [floatBinary, withRequest_cons h, respond_eq_answered h, floatOperand]

/-- Everything a floating request can do when it answers: the OK response of its operation on operands that fit. -/
theorem floatUnary_next {f : BF} {op : Nat → Nat} {s t : State} (h : floatUnary f op s = .next t) :
    ∃ req rest, s.requests = req :: rest ∧ wideFor f req.x = false ∧
      t = s.answered rest (floatResponse f (op req.x.toNat)) := by
  obtain ⟨req, rest, hr, -⟩ := withRequest_next h
  rw [floatUnary_cons hr] at h
  by_cases hw : wideFor f req.x = true
  · simp [hw] at h
  · exact ⟨req, rest, hr, by simpa using hw, by simpa [hw] using h.symm⟩

theorem floatBinary_next {f : BF} {op : Nat → Nat → Nat} {s t : State} (h : floatBinary f op s = .next t) :
    ∃ req rest, s.requests = req :: rest ∧ wideFor f req.x = false ∧ wideFor f req.y = false ∧
      t = s.answered rest (floatResponse f (op req.x.toNat req.y.toNat)) := by
  obtain ⟨req, rest, hr, -⟩ := withRequest_next h
  rw [floatBinary_cons hr] at h
  by_cases hw : (wideFor f req.x || wideFor f req.y) = true
  · simp [hw] at h
  · have hw' : wideFor f req.x = false ∧ wideFor f req.y = false := by simpa using hw
    exact ⟨req, rest, hr, hw'.1, hw'.2, by simpa [hw'] using h.symm⟩

/-- A step with a request presented: what its command word decodes to runs, a rejected word is refused. -/
theorem step_cons {s : State} {req : Request} {rest : List Request} (h : s.requests = req :: rest) :
    step s =
      match decode req.cmd with
      | .ok i => exec i s
      | .error e => .refused (refusalOf e) :=
  withRequest_cons h _

/-- A step that answers decoded its request and ran the operation. -/
theorem step_next {s t : State} (h : step s = .next t) :
    ∃ req rest i, s.requests = req :: rest ∧ decode req.cmd = .ok i ∧ exec i s = .next t := by
  obtain ⟨req, rest, hr, hk⟩ := withRequest_next h
  cases hd : decode req.cmd with
  | error e => simp [hd] at hk
  | ok i => exact ⟨req, rest, i, hr, hd, by simpa [hd] using hk⟩

/-- A run of a machine passes a step that answers. -/
theorem run_succ_of_next (M : Host.Core) {s t : M.State} (h : M.step s = .next t) (k : Nat) :
    M.run (k + 1) s = M.run k t := by
  simp only [Host.Core.run, h]

/-- A run of CORE passes a step that answers. -/
theorem run_next {s t : State} (h : step s = .next t) (k : Nat) :
    Host.Core.run core (k + 1) s = Host.Core.run core k t :=
  run_succ_of_next core h k

/-- A run of CORE ends when no request is presented. -/
theorem run_nil {s : State} (h : s.requests = []) (k : Nat) :
    Host.Core.run core (k + 1) s = .fault Fault.noRequest := by
  have hs : core.step s = .fault Fault.noRequest := withRequest_nil h _
  exact (show ∀ (M : Host.Core) (s : M.State) (f : M.Fault), M.step s = .fault f → M.run (k + 1) s = .fault f from
    fun M s f hf => by simp only [Host.Core.run, hf]) core s _ hs

end Sys2Proof.Machine
end

