-- ==== Sys2Proof/Laws/Exec.lean ====
section
/-! SUPPORT. Each operation as the shared request shape it is, so that proofs need not unfold the dispatch. -/

namespace Sys2Proof.Machine

theorem exec_fxId (a b : Nat) (s : State) :
    exec (.fxId a b) s = fxRequest a b (fun x _ => .ok x) s := rfl

theorem exec_fxAdd (a b : Nat) (s : State) :
    exec (.fxAdd a b) s = fxRequest a b (fun x y => .ok (fxAdd (a + b) x y)) s := rfl

theorem exec_fxSub (a b : Nat) (s : State) :
    exec (.fxSub a b) s = fxRequest a b (fun x y => .ok (fxSub (a + b) x y)) s := rfl

theorem exec_fxMul (a b : Nat) (s : State) :
    exec (.fxMul a b) s = fxRequest a b (fun x y => .ok (fxMul a b x y)) s := rfl

theorem exec_fxDiv (a b : Nat) (s : State) :
    exec (.fxDiv a b) s = fxRequest a b (fun x y => if y = 0 then .error .divByZero else .ok (fxDiv a b x y)) s := rfl

theorem exec_hId (s : State) : exec .hId s = floatUnary half (fun x => x) s := rfl

theorem exec_hAdd (s : State) :
    exec .hAdd s = floatBinary half (fun x y => BF.add half s.params.qnanH.toNat x y) s := rfl

theorem exec_hSub (s : State) :
    exec .hSub s = floatBinary half (fun x y => BF.sub half s.params.qnanH.toNat x y) s := rfl

theorem exec_hMul (s : State) :
    exec .hMul s = floatBinary half (fun x y => BF.mul half s.params.qnanH.toNat x y) s := rfl

theorem exec_hDiv (s : State) :
    exec .hDiv s = floatBinary half (fun x y => BF.div half s.params.divInfInf s.params.qnanH.toNat x y) s := rfl

theorem exec_sId (s : State) : exec .sId s = floatUnary single (fun x => x) s := rfl

theorem exec_sAdd (s : State) :
    exec .sAdd s = floatBinary single (fun x y => BF.add single s.params.qnanS.toNat x y) s := rfl

theorem exec_sSub (s : State) :
    exec .sSub s = floatBinary single (fun x y => BF.sub single s.params.qnanS.toNat x y) s := rfl

theorem exec_sMul (s : State) :
    exec .sMul s = floatBinary single (fun x y => BF.mul single s.params.qnanS.toNat x y) s := rfl

theorem exec_sDiv (s : State) :
    exec .sDiv s = floatBinary single (fun x y => BF.div single s.params.divInfInf s.params.qnanS.toNat x y) s := rfl

end Sys2Proof.Machine
end

