-- ==== Sys2Proof/Laws/Fixed.lean ====
section
/-! SUPPORT. The arithmetic of `Q(a,b)` patterns against the integers they stand for (40_fixed_arith.md section 1). -/

namespace Sys2Proof

open Machine

/-- `normalize` as an integer is the remainder. -/
theorem fxNormalize_cast (n : Nat) (raw : Int) : (fxNormalize n raw : Int) = raw % 2 ^ n := by
  have h : (0:Int) ≤ raw % 2 ^ n := Int.emod_nonneg _ (by positivity)
  simp [fxNormalize, Int.toNat_of_nonneg h]

/-- `normalize` lands in the format. -/
theorem fxNormalize_lt (n : Nat) (raw : Int) : fxNormalize n raw < 2 ^ n := by
  have h := Int.emod_lt_of_pos raw (b := 2 ^ n) (by positivity)
  rw [← fxNormalize_cast] at h
  exact_mod_cast h

/-- `normalize` of a natural number is the remainder. -/
theorem fxNormalize_natCast (n x : Nat) : fxNormalize n (x : Int) = x % 2 ^ n := by
  have h := fxNormalize_cast n x
  exact_mod_cast h

/-- `normalize` leaves a pattern of the format as it is. -/
theorem fxNormalize_of_lt {n x : Nat} (h : x < 2 ^ n) : fxNormalize n (x : Int) = x := by
  rw [fxNormalize_natCast, Nat.mod_eq_of_lt h]

/-- `normalize` sees a number modulo `2^n` only. -/
theorem fxNormalize_congr {n : Nat} {r s : Int} (h : (2:Int) ^ n ∣ r - s) : fxNormalize n r = fxNormalize n s := by
  have : r % 2 ^ n = s % 2 ^ n := Int.emod_eq_emod_iff_emod_sub_eq_zero.mpr (Int.emod_eq_zero_of_dvd h)
  simp [fxNormalize, this]

/-- `2^n` is twice `2^(n-1)`. -/
theorem two_pow_pred {n : Nat} (h : 1 ≤ n) : 2 ^ n = 2 * 2 ^ (n - 1) := by
  obtain ⟨k, rfl⟩ : ∃ k, n = k + 1 := ⟨n - 1, by omega⟩
  simp [pow_succ]; ring

/-- The sign bit of a pattern is set when the pattern is `2^(n-1)` or more. -/
theorem fxHasSign_iff {n v : Nat} (hn : 1 ≤ n) (hv : v < 2 ^ n) : fxHasSign n v = true ↔ 2 ^ (n - 1) ≤ v := by
  have h2 := two_pow_pred hn
  have hp : 0 < 2 ^ (n - 1) := by positivity
  simp only [fxHasSign, bitSet, decide_eq_true_eq]
  constructor
  · intro h
    by_contra hlt
    rw [Nat.div_eq_of_lt (by omega)] at h
    simp at h
  · intro h
    have h1 : v / 2 ^ (n - 1) = 1 := Nat.div_eq_of_lt_le (by omega) (by omega)
    rw [h1]

/-- Negation of a pattern without the modulus. -/
theorem fxNegate_eq {n v : Nat} (hv : v < 2 ^ n) : fxNegate n v = if v = 0 then 0 else 2 ^ n - v := by
  split
  · subst v
    simp [fxNegate, fxNormalize]
  · have : ((2:Int)^n - v) = ((2 ^ n - v : Nat) : Int) := by
      rw [Nat.cast_sub hv.le]; simp
    rw [fxNegate, this, fxNormalize_of_lt]
    omega

/-- The magnitude of the number a pattern stands for is at most `2^(n-1)`. -/
theorem fxVal_natAbs_le {n v : Nat} (hn : 1 ≤ n) (hv : v < 2 ^ n) : (fxVal n v).natAbs ≤ 2 ^ (n - 1) := by
  have h2 := two_pow_pred hn
  have hc : ((2:Int)^n) = ((2 ^ n : Nat) : Int) := by simp
  unfold fxVal; split <;> (try rw [hc]) <;> omega

/-- The pattern 0 stands for 0. -/
theorem fxVal_zero (n : Nat) : fxVal n 0 = 0 := by
  simp [fxVal]

/-- A pattern and its number agree modulo `2^n`. -/
theorem fxVal_sub_self_dvd (n v : Nat) : (2:Int)^n ∣ fxVal n v - v := by
  unfold fxVal; split
  · exact ⟨-1, by ring⟩
  · simp

/-- A number and its normalised pattern agree modulo `2^n`. -/
theorem normalize_dvd (n : Nat) (raw : Int) : (2:Int)^n ∣ (fxNormalize n raw : Int) - raw := by
  rw [fxNormalize_cast]
  exact ⟨-(raw / 2^n), by have := Int.emod_add_mul_ediv raw (2^n); linarith⟩

/-- The range of the numbers that patterns stand for. -/
theorem fxVal_bounds {n v : Nat} (hn : 1 ≤ n) (hv : v < 2 ^ n) :
    -(2:Int)^(n-1) ≤ fxVal n v ∧ fxVal n v < 2^(n-1) := by
  have h2 := two_pow_pred hn
  have hc : ((2:Int)^n) = ((2 ^ n : Nat) : Int) := by simp
  have hc' : ((2:Int)^(n-1)) = ((2 ^ (n-1) : Nat) : Int) := by simp
  unfold fxVal; split <;> rw [hc'] <;> try rw [hc]
  all_goals omega

/-- A number in the range is the number of the pattern it agrees with modulo `2^n`. -/
theorem fxVal_unique {n v : Nat} (hn : 1 ≤ n) (hv : v < 2 ^ n) {z : Int} (hd : (2:Int)^n ∣ fxVal n v - z)
    (h1 : -(2:Int)^(n-1) ≤ z) (h2 : z < 2^(n-1)) : fxVal n v = z := by
  obtain ⟨b1, b2⟩ := fxVal_bounds hn hv
  obtain ⟨k, hk⟩ := hd
  have hp : ((2:Int)^n) = 2 * 2^(n-1) := by exact_mod_cast two_pow_pred hn
  have hpos : (0:Int) < 2^(n-1) := by positivity
  have : k = 0 := by
    rw [hp] at hk
    have h3 : (2 * 2^(n-1)) * k < (2 * 2^(n-1)) * 1 := by linarith
    have h4 : (2 * 2^(n-1)) * (-1) < (2 * 2^(n-1)) * k := by linarith
    have h5 := lt_of_mul_lt_mul_left h3 (by positivity)
    have h6 := lt_of_mul_lt_mul_left h4 (by positivity)
    omega
  subst this; simp at hk; linarith

/-- A fixed-point operand is the port word modulo `2^n`. -/
theorem fxOperand_eq (n : Nat) (w : Word) : fxOperand n w = w.toNat % 2 ^ n := fxNormalize_natCast n w.toNat

end Sys2Proof
end

