-- ==== Sys2Proof/Laws/Float.lean ====
section
/-! SUPPORT. The fields, the sign and the width of floating patterns (42_float_common.md sections 1 and 2). -/

namespace Sys2Proof

/-- `EXPMAX` is not 0. -/
theorem expMax_ne {f : BF} (hf : f.IsUnit) : f.expMax ≠ 0 := by rcases hf with rfl | rfl <;> decide

/-- The exponent field is at most `EXPMAX`. -/
theorem expf_le {f : BF} (hf : f.IsUnit) (x : Nat) : f.expf x ≤ f.expMax := by
  rcases hf with rfl | rfl <;> simp only [BF.expf, slice, BF.expMax, BF.width, half, single] <;> omega

/-- The mantissa field is below `2^m`. -/
theorem frac_lt {f : BF} (hf : f.IsUnit) (x : Nat) : f.frac x < 2 ^ f.m := by
  rcases hf with rfl | rfl <;> simp only [BF.frac, slice, half, single] <;> omega

/-- Flipping a clear top bit adds its weight. -/
theorem xor_two_pow {x k : Nat} (h : x < 2 ^ k) : x ^^^ 2 ^ k = x + 2 ^ k := by
  apply Nat.eq_of_testBit_eq
  intro i
  rw [Nat.testBit_xor, Nat.testBit_two_pow, Nat.add_comm]
  rcases lt_trichotomy i k with hi | rfl | hi
  · rw [Nat.testBit_two_pow_add_gt hi]; rw [decide_eq_false (by omega), Bool.xor_false]
  · rw [Nat.testBit_two_pow_add_eq]; simp
  · have h1 : x < 2 ^ i := h.trans (Nat.pow_lt_pow_right (by omega) hi)
    have h2 : 2 ^ k + x < 2 ^ i := by
      have : 2 ^ (k+1) ≤ 2 ^ i := Nat.pow_le_pow_right (by omega) hi
      rw [pow_succ] at this; omega
    rw [Nat.testBit_lt_two_pow h1, Nat.testBit_lt_two_pow h2]; simp; omega

/-- `negate` of a pattern moves it by the weight of the sign bit. -/
theorem negate_eq {f : BF} {x : Nat} (hx : f.Pattern x) :
    f.negate x = if f.sign x then x - 2^(f.width-1) else x + 2^(f.width-1) := by
  unfold BF.negate BF.sign bitSet
  have hW : f.width = (f.width - 1) + 1 := by unfold BF.width; omega
  rw [BF.Pattern, hW] at hx
  generalize f.width - 1 = k at *
  rw [pow_succ] at hx
  by_cases h : x < 2^k
  · rw [xor_two_pow h, if_neg]; rw [Nat.div_eq_of_lt h]; simp
  · have hd : x / 2^k = 1 := Nat.div_eq_of_lt_le (by omega) (by omega)
    rw [if_pos (by simp [hd])]
    have h1 : x = (x - 2^k) ^^^ 2^k := by rw [xor_two_pow (by omega)]; omega
    conv_lhs => rw [h1]
    rw [Nat.xor_assoc, Nat.xor_self, Nat.xor_zero]

/-- The sign bit of a pattern is set when the pattern is `2^(W-1)` or more. -/
theorem sign_iff {f : BF} {x : Nat} (hx : f.Pattern x) : f.sign x = true ↔ 2^(f.width-1) ≤ x := by
  unfold BF.sign bitSet
  have hW : f.width = (f.width - 1) + 1 := by unfold BF.width; omega
  rw [BF.Pattern, hW, pow_succ] at hx
  generalize f.width - 1 = k at *
  by_cases h : x < 2^k
  · rw [Nat.div_eq_of_lt h]; simp; omega
  · have hd : x / 2^k = 1 := Nat.div_eq_of_lt_le (by omega) (by omega)
    simp [hd]; omega

/-- `2^W` is twice `2^(W-1)`. -/
theorem width_pos (f : BF) : 2 ^ f.width = 2 * 2 ^ (f.width - 1) := by
  have hW : f.width = (f.width - 1) + 1 := by unfold BF.width; omega
  rw [hW, pow_succ]; simp; ring

/-- `negate` keeps the width. -/
theorem negate_pattern {f : BF} {x : Nat} (hx : f.Pattern x) : f.Pattern (f.negate x) := by
  have h1 := sign_iff hx; have h2 := width_pos f
  rw [BF.Pattern, negate_eq hx]
  unfold BF.Pattern at hx
  split_ifs with h
  · omega
  · rw [h1] at h; omega

/-- `negate` undoes itself. -/
theorem negate_negate (f : BF) (x : Nat) : f.negate (f.negate x) = x := by
  simp [BF.negate]

/-- `negate` flips the sign. -/
theorem sign_negate {f : BF} {x : Nat} (hx : f.Pattern x) : f.sign (f.negate x) = !f.sign x := by
  have h1 := sign_iff hx; have h2 := sign_iff (negate_pattern hx); have h3 := width_pos f
  unfold BF.Pattern at hx
  rw [Bool.eq_iff_iff, h2, negate_eq hx]
  by_cases h : f.sign x = true
  · simp only [h, if_true, Bool.not_true, Bool.false_eq_true, iff_false]; omega
  · simp only [Bool.not_eq_true] at h; simp only [h]; simp

/-- `negate` keeps the magnitude pattern. -/
theorem abs_negate {f : BF} {x : Nat} (hx : f.Pattern x) : f.abs (f.negate x) = f.abs x := by
  have h1 := sign_iff hx
  unfold BF.abs; rw [negate_eq hx]
  split_ifs with h
  · rw [h1] at h
    conv_rhs => rw [show x = (x - 2^(f.width-1)) + 2^(f.width-1) by omega]
    rw [Nat.add_mod_right]
  · rw [Nat.add_mod_right]

/-- `abs` clears the sign bit. -/
theorem abs_pattern (f : BF) (x : Nat) : f.abs x < 2^(f.width-1) := Nat.mod_lt _ (by positivity)

/-- A magnitude pattern has a clear sign and is its own `abs`. -/
theorem abs_lt_two {f : BF} {a : Nat} (h : a < 2^(f.width-1)) : f.sign a = false ∧ f.abs a = a ∧ f.Pattern a := by
  have h2 := width_pos f
  have hp : f.Pattern a := by unfold BF.Pattern; omega
  refine ⟨?_, Nat.mod_eq_of_lt h, hp⟩
  have := sign_iff hp
  rw [← Bool.not_eq_true, this]; omega

/-- `abs` keeps the exponent and mantissa fields. -/
theorem fields_abs {f : BF} (hf : f.IsUnit) (x : Nat) : f.expf (f.abs x) = f.expf x ∧ f.frac (f.abs x) = f.frac x := by
  rcases hf with rfl | rfl <;> simp only [BF.abs, BF.expf, BF.frac, slice, BF.width, half, single] <;> norm_num <;> omega

/-- `negate` keeps the exponent and mantissa fields. -/
theorem fields_negate {f : BF} (hf : f.IsUnit) {x : Nat} (hx : f.Pattern x) : f.expf (f.negate x) = f.expf x ∧ f.frac (f.negate x) = f.frac x := by
  have h1 := fields_abs hf x
  have h2 := fields_abs hf (f.negate x)
  rw [abs_negate hx] at h2
  exact ⟨by rw [← h2.1, h1.1], by rw [← h2.2, h1.2]⟩

/-- The class is read from the two fields. -/
theorem classify_congr {f : BF} {x y : Nat} (h : f.expf x = f.expf y ∧ f.frac x = f.frac y) : f.classify x = f.classify y := by
  unfold BF.classify; rw [h.1, h.2]

/-- `negate` keeps the class. -/
theorem classify_negate {f : BF} (hf : f.IsUnit) {x : Nat} (hx : f.Pattern x) : f.classify (f.negate x) = f.classify x :=
  classify_congr (fields_negate hf hx)

end Sys2Proof
end

