-- ==== Sys2Proof/Laws/PerInstr.lean ====
section
/-! SUPPORT. The family of statements made per operation: the command word of a well-formed operation sets no reserved bit
and no round mode, and an H or S operation sets neither `A` nor `B` (30_encoding.md R65, R66, R67). -/

namespace Sys2Proof.Laws.CommandWord

/-- The unit of an operation has the pair `(a,b)`: it is FX (30_encoding.md R66). -/
def hasPair : Instr → Bool
  | .fxId _ _ => true
  | .fxAdd _ _ => true
  | .fxSub _ _ => true
  | .fxMul _ _ => true
  | .fxDiv _ _ => true
  | .hId => false
  | .hAdd => false
  | .hSub => false
  | .hMul => false
  | .hDiv => false
  | .sId => false
  | .sAdd => false
  | .sSub => false
  | .sMul => false
  | .sDiv => false

/-- What the command word of an operation leaves 0. -/
def Statement (i : Instr) : Prop :=
  i.WellFormed →
    let w := cmdFields (encode i)
    w.rm = 0 ∧ w.rsvd7 = 0 ∧ w.rsvd14 = 0 ∧ w.rsvd22 = 0 ∧ (hasPair i = false → w.a = 0 ∧ w.b = 0)

/-- The command word of an FX operation, whatever its `OP`. -/
theorem of_pair {i : Instr} {op a b : Nat} (ho : op < 8) (he : encode i = cmdWord 0 op a b)
    (hw : i.WellFormed → FieldsFit a b) (hp : hasPair i = true) : Statement i := by
  intro hi
  rw [he, cmdWord_fields (by omega) ho (hw hi).1 (hw hi).2]
  simp [hp]

theorem fxId (a b : Nat) : Statement (.fxId a b) :=
  of_pair (op := 0) (by omega) rfl (fun h => of_decide_eq_true h) rfl

theorem fxAdd (a b : Nat) : Statement (.fxAdd a b) :=
  of_pair (op := 1) (by omega) rfl (fun h => of_decide_eq_true h) rfl

theorem fxSub (a b : Nat) : Statement (.fxSub a b) :=
  of_pair (op := 2) (by omega) rfl (fun h => of_decide_eq_true h) rfl

theorem fxMul (a b : Nat) : Statement (.fxMul a b) :=
  of_pair (op := 3) (by omega) rfl (fun h => of_decide_eq_true h) rfl

theorem fxDiv (a b : Nat) : Statement (.fxDiv a b) :=
  of_pair (op := 4) (by omega) rfl (fun h => of_decide_eq_true h) rfl

theorem hId : Statement .hId := fun _ => by decide

theorem hAdd : Statement .hAdd := fun _ => by decide

theorem hSub : Statement .hSub := fun _ => by decide

theorem hMul : Statement .hMul := fun _ => by decide

theorem hDiv : Statement .hDiv := fun _ => by decide

theorem sId : Statement .sId := fun _ => by decide

theorem sAdd : Statement .sAdd := fun _ => by decide

theorem sSub : Statement .sSub := fun _ => by decide

theorem sMul : Statement .sMul := fun _ => by decide

theorem sDiv : Statement .sDiv := fun _ => by decide

end Sys2Proof.Laws.CommandWord
end

