-- ==== Sys2Proof/Laws/Text.lean ====
section
/-! SUPPORT. Digits and numerals, and the rounding of the fixed-point renderer (00_scope.md R12, 41_fixed_render.md R132). -/

namespace Sys2Proof

open Machine

/-- Enough fuel for the digits is enough, whatever its amount. -/
theorem decimalAux_fuel : ∀ (n m k : Nat), k < 2 ^ n → k < 2 ^ m → 0 < n → 0 < m → decimalAux n k = decimalAux m k := by
  intro n
  induction n with
  | zero => intro m k _ _ h; omega
  | succ n ih =>
    intro m k h1 h2 _ h3
    obtain ⟨m, rfl⟩ : ∃ j, m = j + 1 := ⟨m - 1, by omega⟩
    unfold decimalAux
    split_ifs with hk
    · rfl
    · rw [pow_succ] at h1 h2
      have hn : 0 < n := by rcases n with _ | n; · simp at h1; omega
                            · omega
      have hm : 0 < m := by rcases m with _ | m; · simp at h2; omega
                            · omega
      rw [ih m (k/10) (by omega) (by omega) hn hm]

/-- `dec` digit by digit. -/
theorem dec_eq (k : Nat) : dec k = if k < 10 then [digitByte k] else dec (k / 10) ++ [digitByte (k % 10)] := by
  unfold dec
  conv_lhs => unfold decimalAux
  split_ifs with h
  · rfl
  · have hk : k ≠ 0 := by omega
    have h1 : k < 2 ^ (Nat.log2 k + 1) := Nat.lt_log2_self
    have h2 : k / 10 < 2 ^ (Nat.log2 (k/10) + 1) := Nat.lt_log2_self
    rw [pow_succ] at h1
    have hl : 0 < Nat.log2 k := by
      by_contra hc
      have : Nat.log2 k = 0 := by omega
      rw [this] at h1; omega
    rw [decimalAux_fuel (Nat.log2 k) (Nat.log2 (k/10) + 1) (k/10) (by omega) h2 hl (by omega)]

/-- The code of a decimal digit. -/
theorem digitByte_toNat {d : Nat} (h : d < 10) : (digitByte d).toNat = 0x30 + d := by
  simp [digitByte, h]; omega

/-- A hexadecimal digit reads back, and its code is that of a lowercase digit. -/
theorem hexDigitValue_digit {d : Nat} (h : d < 16) : hexDigitValue (digitByte d) = d ∧ 
   ((0x30 ≤ (digitByte d).toNat ∧ (digitByte d).toNat ≤ 0x39) ∨ (0x61 ≤ (digitByte d).toNat ∧ (digitByte d).toNat ≤ 0x66)) := by
  revert d; decide

/-- Digits are text characters. -/
theorem digit_text {c : Byte} (h : (0x30 ≤ c.toNat ∧ c.toNat ≤ 0x39) ∨ (0x61 ≤ c.toNat ∧ c.toNat ≤ 0x66)) : textByte c = true := by
  revert c; decide

/-- Everything `roundScaled` can do. -/
theorem round_spec (num b : Nat) (hb : 1 ≤ b) :
    roundScaled .up num b = (num + 2 ^ (b-1)) / 2 ^ b ∧ (num % 2 ^ b ≠ 2 ^ (b-1) → ∀ t, roundScaled t num b = roundScaled .up num b) ∧
    (num % 2 ^ b = 2 ^ (b-1) → ∀ t, roundScaled t num b = tieTo t (num / 2^b)) ∧ ∀ t, roundScaled t num b = num / 2^b ∨ (roundScaled t num b = num / 2^b + 1 ∧ num % 2 ^ b ≠ 0) := by
  have h2 := two_pow_pred hb
  have hp : 0 < 2 ^ (b-1) := by positivity
  unfold roundScaled
  generalize 2 ^ (b - 1) = H at *
  rw [h2]
  have e := Nat.div_add_mod num (2*H)
  have hm := Nat.mod_lt num (show 0 < 2*H by omega)
  simp only
  generalize hr : num % (2*H) = r at *
  generalize hq : num / (2*H) = q at *
  have c1 : r < H → (num + H) / (2*H) = q := by
    intro h; apply Nat.div_eq_of_lt_le
    · rw [mul_comm]; omega
    · rw [add_mul, mul_comm q]; omega
  have c2 : ¬ r < H → (num + H) / (2*H) = q + 1 := by
    intro h; apply Nat.div_eq_of_lt_le
    · rw [add_mul, mul_comm q]; omega
    · rw [add_mul, add_mul, mul_comm q]; omega
  refine ⟨?_, ?_, ?_, ?_⟩
  · split_ifs with h3 h4
    · rw [c1 (by omega)]
    · rw [c2 (by omega)]
    · rw [c2 (by omega)]; rfl
  · intro h t
    split_ifs <;> first | rfl | omega
  · intro h t; rw [if_neg (by omega), if_neg (by omega)]
  · intro t
    split_ifs
    · left; rfl
    · right; omega
    · cases t
      · exact .inr ⟨rfl, by omega⟩
      · unfold tieTo; simp only
        split_ifs
        · exact .inl rfl
        · exact .inr ⟨rfl, by omega⟩
      · exact .inl rfl

/-- Three rounded digits of a fraction are at most 1000. -/
theorem roundScaled_le (t : FxTie) (b fr : Nat) (hb : 1 ≤ b) (hf : fr < 2^b) : roundScaled t (fr * 1000) b ≤ 1000 := by
  have hq : fr * 1000 / 2^b < 1000 := by rw [Nat.div_lt_iff_lt_mul (by positivity)]; nlinarith
  rcases (round_spec (fr*1000) b hb).2.2.2 t with h | h <;> omega

/-- The two parts of a rendered magnitude are quotient and remainder of its thousandths. -/
theorem fxParts_eq (t : FxTie) (b mag : Nat) (hb : 1 ≤ b) :
    fxParts t b mag = ((mag / 2 ^ b * 1000 + roundScaled t (mag % 2 ^ b * 1000) b) / 1000, (mag / 2 ^ b * 1000 + roundScaled t (mag % 2 ^ b * 1000) b) % 1000) := by
  have hd := roundScaled_le t b (mag % 2^b) hb (Nat.mod_lt _ (by positivity))
  unfold fxParts
  by_cases hc : roundScaled t (mag % 2 ^ b * 1000) b = 1000
  · rw [hc]; simp
  · refine (if_neg hc).trans ?_
    rw [Prod.mk.injEq]; constructor <;> omega

end Sys2Proof
end

