-- ==== Sys2Proof/Laws/Units.lean ====
section
/-! SUPPORT. The numbers that floating patterns stand for, counted in units of the smallest denormal, and what truncation to a
format needs (42_float_common.md R157, R161, R172). -/

namespace Sys2Proof

/-- A power of two is positive. -/
theorem pow2_pos (k : Int) : 0 < pow2 k := by unfold pow2; positivity

/-- Powers of two add their exponents. -/
theorem pow2_add (j k : Int) : pow2 (j + k) = pow2 j * pow2 k := zpow_add₀ (by norm_num) j k

/-- A power of two with a natural exponent. -/
theorem pow2_nat (k : Nat) : pow2 k = ((2 ^ k : Nat) : ℚ) := by simp [pow2]

/-- Powers of two grow with the exponent. -/
theorem pow2_le {j k : Int} (h : j ≤ k) : pow2 j ≤ pow2 k := zpow_le_zpow_right₀ (by norm_num) h

/-- Powers of two grow strictly with the exponent. -/
theorem pow2_lt {j k : Int} (h : j < k) : pow2 j < pow2 k := zpow_lt_zpow_right₀ (by norm_num) h

/-- `msb` is the index of the highest set bit (00_scope.md R12). -/
theorem msb_spec {M : Nat} (h : M ≠ 0) : 2 ^ msb M ≤ M ∧ M < 2 ^ (msb M + 1) :=
  ⟨Nat.log2_self_le h, Nat.lt_log2_self⟩

/-- A shift is the product with a power of two, rounded down. -/
theorem shiftBy_spec (M : Nat) (k : Int) : (shiftBy M k : ℚ) ≤ M * pow2 k ∧ M * pow2 k < shiftBy M k + 1 := by
  unfold shiftBy
  split_ifs with h
  · have : pow2 k = ((2 ^ k.toNat : Nat) : ℚ) := by rw [← pow2_nat, Int.toNat_of_nonneg h]
    rw [this]; push_cast; constructor <;> linarith
  · have hk : k = -((-k).toNat : Int) := by omega
    have : pow2 k = 1 / ((2 ^ (-k).toNat : Nat) : ℚ) := by
      conv_lhs => rw [hk]
      unfold pow2; rw [zpow_neg, zpow_natCast]; push_cast; rw [one_div]
    rw [this]
    generalize (-k).toNat = j
    have hp : (0:ℚ) < ((2 ^ j : Nat) : ℚ) := by positivity
    rw [mul_one_div, le_div_iff₀ hp, div_lt_iff₀ hp]
    constructor
    · exact_mod_cast Nat.div_mul_le_self M (2^j)
    · have := Nat.lt_div_mul_add (a := M) (b := 2^j) (by positivity)
      have : M < (M / 2^j + 1) * 2^j := by linarith
      exact_mod_cast this

/-- The number a magnitude pattern stands for, in units of the smallest denormal; a proof tool, no definition of the
model. -/
def units (f : BF) (g : Nat) : Nat := if g / 2 ^ f.m = 0 then g else (2 ^ f.m + g % 2 ^ f.m) * 2 ^ (g / 2 ^ f.m - 1)

/-- Zero has no units. -/
theorem units_zero (f : BF) : units f 0 = 0 := by simp [units]

/-- The next magnitude pattern is one unit in the last place further. -/
theorem units_succ (f : BF) (g : Nat) : units f (g + 1) = units f g + 2 ^ (g / 2 ^ f.m - 1) := by
  have hp : 0 < 2 ^ f.m := by positivity
  unfold units
  generalize 2 ^ f.m = K at *
  obtain ⟨E, F, hF, rfl⟩ : ∃ E F, F < K ∧ g = E * K + F :=
    ⟨g / K, g % K, Nat.mod_lt _ hp, by rw [mul_comm]; exact (Nat.div_add_mod g K).symm⟩
  have hd : ∀ E F, F < K → (E * K + F) / K = E ∧ (E * K + F) % K = F := by
    intro E F hF
    rw [add_comm, Nat.add_mul_div_right _ _ hp, Nat.add_mul_mod_self_right, Nat.div_eq_of_lt hF, Nat.mod_eq_of_lt hF]; simp
  obtain ⟨d1, d2⟩ := hd E F hF
  rw [d1, d2]
  by_cases hc : F + 1 = K
  · have h1 : E * K + F + 1 = (E + 1) * K + 0 := by rw [add_mul]; omega
    obtain ⟨d3, d4⟩ := hd (E+1) 0 hp
    rw [h1, d3, d4, if_neg (by omega)]
    by_cases h0 : E = 0
    · subst h0; simp; omega
    · obtain ⟨j, rfl⟩ : ∃ j, E = j + 1 := ⟨E - 1, by omega⟩
      rw [if_neg (by omega)]; simp only [Nat.add_sub_cancel, pow_succ, ← hc]; ring
  · obtain ⟨d3, d4⟩ := hd E (F+1) (by omega)
    rw [show E * K + F + 1 = E * K + (F + 1) by ring, d3, d4]
    split_ifs with h0
    · simp [h0]
    · ring

/-- A larger magnitude pattern stands for a larger number. -/
theorem units_mono (f : BF) : StrictMono (units f) := by
  apply strictMono_nat_of_lt_succ
  intro g; rw [units_succ]; have : 0 < 2 ^ (g / 2^f.m - 1) := by positivity
  omega

/-- The fields of a magnitude pattern by division. -/
theorem unpack_eq {f : BF} (hf : f.IsUnit) {g : Nat} (h : g < 2 ^ (f.width - 1)) :
    f.expf g = g / 2 ^ f.m ∧ f.frac g = g % 2 ^ f.m := by
  rcases hf with rfl | rfl <;> simp only [BF.expf, BF.frac, slice, BF.width, half, single] at * <;> norm_num at * <;> omega

/-- The number a magnitude pattern stands for, in units. -/
theorem magnitude_eq {f : BF} (hf : f.IsUnit) {g : Nat} (h : g < 2 ^ (f.width - 1)) :
    f.magnitude g = units f g * pow2 (f.emin - f.m) := by
  obtain ⟨h1, h2⟩ := unpack_eq hf h
  unfold BF.magnitude BF.unpack units
  rw [h1, h2]
  split_ifs with h0
  · have := Nat.div_add_mod g (2 ^ f.m); rw [h0] at this; simp at this; rw [this]
  · push_cast
    have : pow2 ((((g / 2 ^ f.m : Nat) : Int) - f.bias) - f.m) = ((2 ^ (g / 2^f.m - 1) : Nat) : ℚ) * pow2 (f.emin - f.m) := by
      rw [← pow2_nat, ← pow2_add]; congr 1; unfold BF.emin; omega
    push_cast at this; rw [this]; ring

/-- `INF` is a magnitude pattern. -/
theorem inf_lt {f : BF} (hf : f.IsUnit) : f.inf < 2 ^ (f.width - 1) := by rcases hf with rfl | rfl <;> decide

/-- `INF` stands just above the finite range: its units make `2^(emax+1)`. -/
theorem units_inf {f : BF} (hf : f.IsUnit) : units f f.inf * pow2 (f.emin - f.m) = pow2 (f.emax + 1) := by
  have hK : 0 < 2 ^ f.m := by positivity
  have hb : f.expMax - 1 = 2 * f.bias := by rcases hf with rfl | rfl <;> decide
  have hne := expMax_ne hf
  unfold units BF.inf
  rw [Nat.mul_div_cancel _ hK, if_neg hne, Nat.mul_mod_left, hb, Nat.add_zero, ← pow_add, ← pow2_nat, ← pow2_add]
  congr 1; unfold BF.emin BF.emax; push_cast; ring

/-- A number between two neighbouring patterns is truncated to the lower one. -/
theorem trunc_of {f : BF} (hf : f.IsUnit) {v : ℚ} {g : Nat} (hg : g < f.inf) (h1 : units f g * pow2 (f.emin - f.m) ≤ v)
    (h2 : v < units f (g+1) * pow2 (f.emin - f.m)) : f.IsTruncation v g := by
  have hu := pow2_pos (f.emin - f.m)
  have hi := units_inf hf
  have hlt : v < pow2 (f.emax + 1) := by
    rw [← hi]; apply h2.trans_le
    apply mul_le_mul_of_nonneg_right _ hu.le
    exact_mod_cast (units_mono f).monotone hg
  refine ⟨fun h => absurd hlt (not_lt.mpr h), fun _ => ⟨hg, ?_, ?_⟩⟩
  · rw [magnitude_eq hf (hg.trans (inf_lt hf))]; exact h1
  · intro h hh hle
    rw [magnitude_eq hf (hh.trans (inf_lt hf))] at hle
    have := lt_of_le_of_lt hle h2
    have := lt_of_mul_lt_mul_right this hu.le
    have := (units_mono f).lt_iff_lt.mp (by exact_mod_cast this)
    omega

/-- `EXPMAX` and `bias`. -/
theorem bias_facts {f : BF} (hf : f.IsUnit) : f.expMax = 2 * f.bias + 1 ∧ 1 ≤ f.bias := by
  rcases hf with rfl | rfl <;> decide

/-- `abs` keeps the magnitude. -/
theorem magnitude_abs {f : BF} (hf : f.IsUnit) (x : Nat) : f.magnitude (f.abs x) = f.magnitude x := by
  obtain ⟨h1, h2⟩ := fields_abs hf x
  unfold BF.magnitude BF.unpack; rw [h1, h2]

/-- `abs` keeps what `unpack` gives. -/
theorem unpack_abs {f : BF} (hf : f.IsUnit) (x : Nat) : f.unpack (f.abs x) = f.unpack x := by
  obtain ⟨h1, h2⟩ := fields_abs hf x
  unfold BF.unpack; rw [h1, h2]

/-- The magnitude pattern of a finite value is below `INF`. -/
theorem finite_abs_lt {f : BF} (hf : f.IsUnit) {x : Nat} (h : f.Finite x) : f.abs x < f.inf := by
  obtain ⟨h1, h2⟩ := h
  have ha := abs_pattern f x
  obtain ⟨e1, e2⟩ := unpack_eq hf ha
  obtain ⟨f1, f2⟩ := fields_abs hf x
  have hl := expf_le hf x
  have hne : f.expf x ≠ f.expMax := by
    intro he
    simp only [BF.isInfinity, BF.isNan, he, beq_self_eq_true, Bool.true_and] at h1 h2
    by_cases h0 : f.frac x = 0 <;> simp [h0] at h1 h2
  have : f.abs x / 2 ^ f.m < f.expMax := by omega
  exact (Nat.div_lt_iff_lt_mul (by positivity)).mp this

/-- The ranges of what `unpack` gives for a finite magnitude pattern. -/
theorem unpack_facts {f : BF} (hf : f.IsUnit) {a : Nat} (h : a < f.inf) :
    f.emin ≤ (f.unpack a).1 ∧ (f.unpack a).1 ≤ f.emax ∧ (f.unpack a).2 < 2 ^ (f.m + 1) ∧
    ((f.unpack a).1 = f.emin ∨ 2 ^ f.m ≤ (f.unpack a).2) := by
  obtain ⟨e1, e2⟩ := unpack_eq hf (h.trans (inf_lt hf))
  obtain ⟨hb, hb1⟩ := bias_facts hf
  have h1 := frac_lt hf a
  have hlt : a / 2 ^ f.m < f.expMax := (Nat.div_lt_iff_lt_mul (by positivity)).mpr h
  rw [← e1] at hlt
  have : f.emin = 1 - f.bias := rfl
  have : f.emax = f.bias := rfl
  unfold BF.unpack; rw [pow_succ]
  split_ifs with h0
  · refine ⟨?_, ?_, ?_, .inl rfl⟩ <;> simp only <;> omega
  · refine ⟨?_, ?_, ?_, .inr ?_⟩ <;> simp only <;> omega

/-- Magnitude patterns are ordered as the numbers they stand for. -/
theorem mag_lt_iff {f : BF} (hf : f.IsUnit) {a b : Nat} (ha : a < 2 ^ (f.width-1)) (hb : b < 2 ^ (f.width-1)) :
    f.magnitude a < f.magnitude b ↔ a < b := by
  rw [magnitude_eq hf ha, magnitude_eq hf hb, mul_lt_mul_iff_left₀ (pow2_pos _), Nat.cast_lt, (units_mono f).lt_iff_lt]

/-- Magnitude patterns that stand for one number are one pattern. -/
theorem mag_inj {f : BF} (hf : f.IsUnit) {a b : Nat} (ha : a < 2 ^ (f.width-1)) (hb : b < 2 ^ (f.width-1))
    (h : f.magnitude a = f.magnitude b) : a = b := by
  have h1 := mag_lt_iff hf ha hb; have h2 := mag_lt_iff hf hb ha
  rw [h] at h1 h2; simp at h1 h2; omega

/-- A magnitude is not negative. -/
theorem mag_nonneg (f : BF) (x) : 0 ≤ f.magnitude x := by
  unfold BF.magnitude; have := pow2_pos ((f.unpack x).1 - f.m); positivity

/-- A number of the format that is `2^E` or more is a multiple of the unit of `E`. -/
theorem mag_multiple {f : BF} (hf : f.IsUnit) {h : Nat} (hh : h < f.inf) {E : Int} (hE : pow2 E ≤ f.magnitude h ∨ E ≤ f.emin) :
    ∃ k : Nat, f.magnitude h = k * pow2 (E - f.m) := by
  obtain ⟨h1, h2, h3, h4⟩ := unpack_facts hf hh
  have hle : E ≤ (f.unpack h).1 := by
    rcases hE with hE | hE
    · by_contra hc
      have : f.magnitude h < pow2 ((f.unpack h).1 + 1) := by
        unfold BF.magnitude
        have e : pow2 ((f.unpack h).1 + 1) = ((2 ^ (f.m + 1) : Nat) : ℚ) * pow2 ((f.unpack h).1 - f.m) := by
          rw [← pow2_nat, ← pow2_add]; congr 1; push_cast; omega
        rw [e]; exact mul_lt_mul_of_pos_right (by exact_mod_cast h3) (pow2_pos _)
      have := this.trans_le (pow2_le (show (f.unpack h).1 + 1 ≤ E by omega))
      linarith
    · omega
  refine ⟨(f.unpack h).2 * 2 ^ ((f.unpack h).1 - E).toNat, ?_⟩
  unfold BF.magnitude
  rw [Nat.cast_mul, ← pow2_nat, mul_assoc, ← pow2_add]; congr 2; omega

/-- Aligning a mantissa to a larger exponent rounds its number down to the larger unit. -/
theorem cut_spec (Mb : Nat) (Ea Eb : Int) (m : Nat) (h : Eb ≤ Ea) :
    ((Mb / 2 ^ (Ea - Eb).toNat : Nat) : ℚ) * pow2 (Ea - m) ≤ Mb * pow2 (Eb - m) ∧
    (Mb : ℚ) * pow2 (Eb - m) < ((Mb / 2 ^ (Ea - Eb).toNat + 1 : Nat) : ℚ) * pow2 (Ea - m) := by
  have e : pow2 (Ea - m) = ((2 ^ (Ea - Eb).toNat : Nat) : ℚ) * pow2 (Eb - m) := by
    rw [← pow2_nat, ← pow2_add]; congr 1; omega
  generalize (Ea - Eb).toNat = d at *
  have hu := pow2_pos (Eb - m)
  rw [e, ← mul_assoc, ← mul_assoc, ← Nat.cast_mul, ← Nat.cast_mul]
  constructor
  · apply mul_le_mul_of_nonneg_right _ hu.le; exact_mod_cast Nat.div_mul_le_self Mb (2^d)
  · apply mul_lt_mul_of_pos_right _ hu
    have := Nat.lt_div_mul_add (a := Mb) (b := 2^d) (by positivity)
    have : Mb < (Mb / 2^d + 1) * 2^d := by linarith
    exact_mod_cast this

/-- A truncation is at most `INF`. -/
theorem trunc_le_inf {f : BF} {v : ℚ} {g : Nat} (h : f.IsTruncation v g) : g ≤ f.inf := by
  by_cases hv : pow2 (f.emax + 1) ≤ v
  · exact (h.1 hv).le
  · exact (h.2 (not_le.mp hv)).1.le

end Sys2Proof
end

