-- ==== Sys2Proof/Tests/Slice0.lean ====
section
/-! SUPPORT. The model's own tests. Every expected value is a row of spec/95_test_vectors.md or a word written out from
30_encoding.md; the last part gives, for every obligation with hypotheses, values that meet them. -/

namespace Sys2Proof.Tests

open Sys2Proof.Machine

/-- A run with one request presented. -/
def one (cmd x y : Word) : State := { State.reset with requests := [{ cmd := cmd, x := x, y := y }] }

/-- `one` under other parameters. -/
def oneWith (p : Params) (cmd x y : Word) : State := { one cmd x y with params := p }

/-- The response a step gave, if it gave one. -/
def answer : StepOutcome → Option Response
  | .next t => t.responses.getLast?
  | .fault _ => none
  | .refused _ => none

/-- `RESULT` and `TEXT` of the response a step gave. -/
def shown (o : StepOutcome) : Option Word × Option (List Byte) :=
  ((answer o).bind Response.result, (answer o).bind Response.text)

/-- The name a step was refused under, if it was. -/
def refusal : StepOutcome → Option Refusal
  | .next _ => none
  | .fault _ => none
  | .refused r => some r

/-! ## Ill-formed terms are refused by the check, well-formed ones are not (30_encoding.md R66) -/

theorem test_wf_fxId_a : ¬ (Instr.fxId 64 1).WellFormed := by decide

theorem test_wf_fxId_b : ¬ (Instr.fxId 1 64).WellFormed := by decide

theorem test_wf_fxAdd_a : ¬ (Instr.fxAdd 64 1).WellFormed := by decide

theorem test_wf_fxAdd_b : ¬ (Instr.fxAdd 1 64).WellFormed := by decide

theorem test_wf_fxSub_a : ¬ (Instr.fxSub 64 1).WellFormed := by decide

theorem test_wf_fxSub_b : ¬ (Instr.fxSub 1 64).WellFormed := by decide

theorem test_wf_fxMul_a : ¬ (Instr.fxMul 64 1).WellFormed := by decide

theorem test_wf_fxMul_b : ¬ (Instr.fxMul 1 64).WellFormed := by decide

theorem test_wf_fxDiv_a : ¬ (Instr.fxDiv 64 1).WellFormed := by decide

theorem test_wf_fxDiv_b : ¬ (Instr.fxDiv 1 64).WellFormed := by decide

theorem test_wf_accepts : (Instr.fxDiv 63 63).WellFormed ∧ (Instr.fxId 0 0).WellFormed ∧ Instr.sDiv.WellFormed := by decide

/-! ## Decoding words written out bit by bit from 30_encoding.md R61, R63, R64: `B` at 16, `A` at 8, `OP` at 2, `FMT` at 0 -/

/-- FX.ID 4, 4 is 0x00040400 in 95 section 1. -/
theorem test_decode_fxId : decode 0b0000000000_000100_00_000100_0_00_000_00#32 = .ok (.fxId 4 4) := by decide

/-- R62: 0x00040404. -/
theorem test_decode_fxAdd : decode 0b0000000000_000100_00_000100_0_00_001_00#32 = .ok (.fxAdd 4 4) := by decide

/-- 95 section 3.1: 0x00012008. -/
theorem test_decode_fxSub : decode 0b0000000000_000001_00_100000_0_00_010_00#32 = .ok (.fxSub 32 1) := by decide

/-- 95 section 3.1: 0x003F3F0C. -/
theorem test_decode_fxMul : decode 0b0000000000_111111_00_111111_0_00_011_00#32 = .ok (.fxMul 63 63) := by decide

/-- 95 section 2.5: 0x001F0110. -/
theorem test_decode_fxDiv : decode 0b0000000000_011111_00_000001_0_00_100_00#32 = .ok (.fxDiv 1 31) := by decide

/-- 95 section 1: 0x00000001. -/
theorem test_decode_hId : decode 0b0000000000_000000_00_000000_0_00_000_01#32 = .ok .hId := by decide

/-- 95 section 1: 0x00000005. -/
theorem test_decode_hAdd : decode 0b0000000000_000000_00_000000_0_00_001_01#32 = .ok .hAdd := by decide

/-- 95 section 2.8: 0x00000009. -/
theorem test_decode_hSub : decode 0b0000000000_000000_00_000000_0_00_010_01#32 = .ok .hSub := by decide

/-- 95 section 2.9: 0x0000000D. -/
theorem test_decode_hMul : decode 0b0000000000_000000_00_000000_0_00_011_01#32 = .ok .hMul := by decide

/-- 95 section 2.10: 0x00000011. -/
theorem test_decode_hDiv : decode 0b0000000000_000000_00_000000_0_00_100_01#32 = .ok .hDiv := by decide

/-- 95 section 1: 0x00000002. -/
theorem test_decode_sId : decode 0b0000000000_000000_00_000000_0_00_000_10#32 = .ok .sId := by decide

/-- 95 section 2.11: 0x00000006. -/
theorem test_decode_sAdd : decode 0b0000000000_000000_00_000000_0_00_001_10#32 = .ok .sAdd := by decide

/-- 95 section 2.12: 0x0000000A. -/
theorem test_decode_sSub : decode 0b0000000000_000000_00_000000_0_00_010_10#32 = .ok .sSub := by decide

/-- 95 section 1: 0x0000000E. -/
theorem test_decode_sMul : decode 0b0000000000_000000_00_000000_0_00_011_10#32 = .ok .sMul := by decide

/-- 95 section 2.14: 0x00000012. -/
theorem test_decode_sDiv : decode 0b0000000000_000000_00_000000_0_00_100_10#32 = .ok .sDiv := by decide

/-- The encoder gives the command words of 95 sections 2.5, 2.10 and 3.1. -/
theorem test_encode :
    encode (.fxDiv 1 31) = 0x001F0110#32 ∧ encode .hDiv = 0x00000011#32 ∧ encode (.fxMul 63 63) = 0x003F3F0C#32 := by decide

/-! ## One step each, from the tables of spec/95_test_vectors.md -/

theorem test_fxId_carry :
    shown (step (one 0x00101000#32 0xFFFF#32 0#32)) = (some 0x0000FFFF#32, some (ascii ['1', '.', '0', '0', '0'])) := by decide

theorem test_fxId_most_negative :
    shown (step (one 0x00011F00#32 0x80000000#32 0#32)) = (some 0x80000000#32, some (ascii ['-', '1', '0', '7', '3', '7', '4', '1', '8', '2', '4', '.', '0', '0', '0'])) := by decide

theorem test_fxAdd_masks :
    shown (step (one 0x00040404#32 0x118#32 0xFFFFFF08#32)) = (some 0x00000020#32, some (ascii ['2', '.', '0', '0', '0'])) := by decide

theorem test_fxAdd_wraps :
    shown (step (one 0x00040404#32 0x7F#32 0x1#32)) = (some 0x00000080#32, some (ascii ['-', '8', '.', '0', '0', '0'])) := by decide

theorem test_fxSub_wraps :
    shown (step (one 0x00040408#32 0x80#32 0x1#32)) = (some 0x0000007F#32, some (ascii ['7', '.', '9', '3', '8'])) := by decide

theorem test_fxSub_hidden_sign :
    shown (step (one 0x00101008#32 0x0#32 0x1#32)) = (some 0xFFFFFFFF#32, some (ascii ['0', '.', '0', '0', '0'])) := by decide

theorem test_fxMul_magnitude :
    shown (step (one 0x0004040C#32 0xFD#32 0x8#32)) = (some 0x000000FF#32, some (ascii ['-', '0', '.', '0', '6', '3'])) := by decide

theorem test_fxMul_wraps :
    shown (step (one 0x0010100C#32 0x7FFFFFFF#32 0x7FFFFFFF#32)) = (some 0xFFFF0000#32, some (ascii ['-', '1', '.', '0', '0', '0'])) := by decide

theorem test_fxDiv_magnitude :
    shown (step (one 0x00040410#32 0xF0#32 0x30#32)) = (some 0x000000FB#32, some (ascii ['-', '0', '.', '3', '1', '3'])) := by decide

theorem test_hId_denormal :
    shown (step (one 0x00000001#32 0x8001#32 0xFFFFFFFF#32)) = (some 0x00008001#32, some (ascii ['-', '0', 'x', '1', '.', '0', '0', '0', 'p', '-', '2', '4'])) := by decide

theorem test_hId_one :
    shown (step (one 0x00000001#32 0x3C00#32 0#32)) = (some 0x00003C00#32, some (ascii ['0', 'x', '1', '.', '0', '0', '0', 'p', '+', '0'])) := by decide

theorem test_hAdd_truncates :
    shown (step (one 0x00000005#32 0x7BFF#32 0x4FFF#32)) = (some 0x00007BFF#32, some (ascii ['0', 'x', '1', '.', 'f', 'f', 'c', 'p', '+', '1', '5'])) := by decide

theorem test_hAdd_negative_zero :
    shown (step (one 0x00000005#32 0x8001#32 0x0001#32)) = (some 0x00008000#32, some (ascii ['-', '0', 'x', '0', '.', '0', '0', '0', 'p', '+', '0'])) := by decide

theorem test_hSub_swaps :
    shown (step (one 0x00000009#32 0x4200#32 0x4500#32)) = (some 0x0000C000#32, some (ascii ['-', '0', 'x', '1', '.', '0', '0', '0', 'p', '+', '1'])) := by decide

theorem test_hSub_infinities :
    shown (step (one 0x00000009#32 0x7C00#32 0x7C00#32)) = (some 0x00007E00#32, some (ascii ['n', 'a', 'n'])) := by decide

theorem test_hMul_truncates :
    shown (step (one 0x0000000D#32 0x3555#32 0x4200#32)) = (some 0x00003BFF#32, some (ascii ['0', 'x', '1', '.', 'f', 'f', 'c', 'p', '-', '1'])) := by decide

theorem test_hMul_underflows :
    shown (step (one 0x0000000D#32 0x0003#32 0x3800#32)) = (some 0x00000001#32, some (ascii ['0', 'x', '1', '.', '0', '0', '0', 'p', '-', '2', '4'])) := by decide

theorem test_hDiv_loses_bits :
    shown (step (one 0x00000011#32 0x3C00#32 0x4200#32)) = (some 0x00003554#32, some (ascii ['0', 'x', '1', '.', '5', '5', '0', 'p', '-', '2'])) := by decide

theorem test_hDiv_by_zero :
    shown (step (one 0x00000011#32 0x3C00#32 0x0000#32)) = (some 0x00007C00#32, some (ascii ['i', 'n', 'f'])) := by decide

theorem test_sId_one :
    shown (step (one 0x00000002#32 0x3F800000#32 0#32)) = (some 0x3F800000#32, some (ascii ['0', 'x', '1', '.', '0', '0', '0', '0', '0', '0', 'p', '+', '0'])) := by decide

theorem test_sAdd_cuts :
    shown (step (one 0x00000006#32 0x3DCCCCCD#32 0x3E4CCCCD#32)) = (some 0x3E999999#32, some (ascii ['0', 'x', '1', '.', '3', '3', '3', '3', '3', '2', 'p', '-', '2'])) := by decide

theorem test_sAdd_denormal_carry :
    shown (step (one 0x00000006#32 0x007FFFFF#32 0x00000001#32)) = (some 0x00800000#32, some (ascii ['0', 'x', '1', '.', '0', '0', '0', '0', '0', '0', 'p', '-', '1', '2', '6'])) := by decide

theorem test_sSub_unit :
    shown (step (one 0x0000000A#32 0x3F800000#32 0x3F7FFFFF#32)) = (some 0x34000000#32, some (ascii ['0', 'x', '1', '.', '0', '0', '0', '0', '0', '0', 'p', '-', '2', '3'])) := by decide

theorem test_sSub_longest :
    shown (step (one 0x0000000A#32 0x00000001#32 0x00000002#32)) = (some 0x80000001#32, some (ascii ['-', '0', 'x', '1', '.', '0', '0', '0', '0', '0', '0', 'p', '-', '1', '4', '9'])) := by decide

theorem test_sMul_overflow_sign :
    shown (step (one 0x0000000E#32 0xFF7FFFFF#32 0x7F7FFFFF#32)) = (some 0xFF800000#32, some (ascii ['-', 'i', 'n', 'f'])) := by decide

theorem test_sMul_pi_squared :
    shown (step (one 0x0000000E#32 0x40490FDB#32 0x40490FDB#32)) = (some 0x411DE9E6#32, some (ascii ['0', 'x', '1', '.', '3', 'b', 'd', '3', 'c', 'c', 'p', '+', '3'])) := by decide

theorem test_sDiv_denormals :
    shown (step (one 0x00000012#32 0x00000001#32 0x00000003#32)) = (some 0x3EAAAAA8#32, some (ascii ['0', 'x', '1', '.', '5', '5', '5', '5', '5', '0', 'p', '-', '2'])) := by decide

theorem test_sDiv_signs :
    shown (step (one 0x00000012#32 0xC0A00000#32 0x40000000#32)) = (some 0xC0200000#32, some (ascii ['-', '0', 'x', '1', '.', '4', '0', '0', '0', '0', '0', 'p', '+', '1'])) := by decide

/-- 95 section 2.5: the port is not zero, the normalised divisor is. -/
theorem test_fxDiv_by_zero : answer (step (one 0x00080810#32 0x100#32 0x10000#32)) = some (.fail .divByZero) := by decide

/-- 95 section 2.6: a NaN operand of an identity passes through, with its class. -/
theorem test_sId_class : (answer (step (one 0x00000002#32 0xFFC00001#32 0#32))).bind Response.rclass = some 4#3 := by decide

/-- 95 section 1, row 5: the codes of a response, and its length in five bits. -/
theorem test_codes :
    ((answer (step (one 0x00000005#32 1#32 1#32))).map Response.status,
      (answer (step (one 0x00000005#32 1#32 1#32))).bind Response.rclass,
      (answer (step (one 0x00000005#32 1#32 1#32))).bind Response.tlen) = (some 0#2, some 1#3, some 11#5) := by decide

/-- 60_exceptions.md R276: a failed response carries its status alone. -/
theorem test_failed_codes :
    (Response.fail .formatOverflow).status = 2#2 ∧ (Response.fail .divByZero).status = 1#2 ∧
      (Response.fail .divByZero).result = none ∧ (Response.fail .divByZero).tlen = none := by decide

/-! ## Parameters, 95 section 5 -/

theorem test_tie_even :
    shown (step (oneWith { defaultParams with fxTie := .even } 0x00040400#32 0x1#32 0#32)) =
      (some 1#32, some (ascii ['0', '.', '0', '6', '2'])) := by decide

theorem test_tie_down :
    shown (step (oneWith { defaultParams with fxTie := .down } 0x00040400#32 0x7F#32 0#32)) =
      (some 0x7F#32, some (ascii ['7', '.', '9', '3', '7'])) := by decide

theorem test_div_inf_inf :
    (shown (step (oneWith { defaultParams with divInfInf := .inf } 0x00000011#32 0xFC00#32 0x7C00#32))).1 = some 0xFC00#32 ∧
    (shown (step (oneWith { defaultParams with divInfInf := .zero } 0x00000012#32 0x7F800000#32 0xFF800000#32))).1 =
      some 0x80000000#32 := by decide

/-! ## Failures and refusals, 95 section 3 -/

theorem test_overflow_before_division : answer (step (one 0x00141410#32 1#32 0#32)) = some (.fail .formatOverflow) := by decide

theorem test_overflow_zero_field : answer (step (one 0x00210000#32 0#32 0#32)) = some (.fail .formatOverflow) := by decide

theorem test_overflow_largest : answer (step (one 0x003F3F0C#32 0#32 0#32)) = some (.fail .formatOverflow) := by decide

theorem test_no_overflow_at_32 : shown (step (one 0x001F0100#32 0#32 0#32)) =
    (some 0#32, some (ascii ['0', '.', '0', '0', '0'])) := by decide

theorem test_refused_rm1 : refusal (step (one 0x00000025#32 0x3C00#32 0x3C00#32)) = some .roundMode := by decide

theorem test_refused_rm3 : refusal (step (one 0x00040464#32 0x18#32 8#32)) = some .roundMode := by decide

theorem test_refused_bit7 : refusal (step (one 0x00000085#32 0x3C00#32 0x3C00#32)) = some .reservedBits := by decide

theorem test_refused_bit14 : refusal (step (one 0x00004002#32 0x3F800000#32 0#32)) = some .reservedBits := by decide

theorem test_refused_bit22 : refusal (step (one 0x00400002#32 0x3F800000#32 0#32)) = some .reservedBits := by decide

theorem test_refused_fmt3 : refusal (step (one 0x00000003#32 0#32 0#32)) = some .reservedFmt := by decide

theorem test_refused_op5 : refusal (step (one 0x00000015#32 0#32 0#32)) = some .reservedOp := by decide

theorem test_refused_op7 : refusal (step (one 0x0004041C#32 0#32 0#32)) = some .reservedOp := by decide

theorem test_refused_wide_x : refusal (step (one 0x00000005#32 0x13C00#32 0x3C00#32)) = some .wideOperand := by decide

theorem test_refused_wide_y : refusal (step (one 0x00000009#32 0x3C00#32 0xFFFF3C00#32)) = some .wideOperand := by decide

theorem test_refused_pair_set : refusal (step (one 0x00040405#32 0x3C00#32 0x3C00#32)) = some .reservedBits := by decide

theorem test_refused_b_zero : refusal (step (one 0x00000100#32 1#32 0#32)) = some .abRange := by decide

theorem test_refused_a_zero : refusal (step (one 0x00200000#32 1#32 0#32)) = some .abRange := by decide

theorem test_refused_zero_word : refusal (step (one 0x00000000#32 0#32 0#32)) = some .abRange := by decide

theorem test_refused_rm_before_pair : refusal (step (one 0x00212125#32 0#32 0#32)) = some .roundMode := by decide

theorem test_refused_rm_before_overflow : refusal (step (one 0x00002120#32 0#32 0#32)) = some .roundMode := by decide

theorem test_no_request : step State.reset = .fault .noRequest := rfl

/-! ## The places where the host stores a request -/

/-- Word 0 is `CMD`, word 1 `X`, word 2 `Y`: `FX.ADD 4, 4, 0x18, 0x8` as one number. -/
theorem test_withFetchWord :
    shown (step (State.reset.withFetchWord 96 0x00000008_00000018_00040404)) =
      (some 0x20#32, some (ascii ['2', '.', '0', '0', '0'])) := by decide

theorem test_decodeTableWord : decodeTableWord 32 0x00000011 = some .hDiv ∧ decodeTableWord 32 0x00000013 = none := by decide

/-! ## The notation of 30_encoding.md R80 -/

theorem test_assemble_fx : assemble (ascii ['F', 'X', '.', 'A', 'D', 'D', ' ', '4', ',', ' ', '4', ',', ' ', '0', 'x', '1', '8', ',', ' ', '0', 'x', '0', '8']) =
    some { cmd := 0x00040404#32, x := 0x18#32, y := 8#32 } := by decide

theorem test_assemble_h : assemble (ascii ['H', '.', 'A', 'D', 'D', ' ', '0', 'x', '0', '0', '0', '1', ',', ' ', '0', 'x', '0', '0', '0', '1']) =
    some { cmd := 5#32, x := 1#32, y := 1#32 } := by decide

theorem test_assemble_s : assemble (ascii ['S', '.', 'I', 'D', ' ', '0', 'x', '3', 'f', '8', '0', '0', '0', '0', '0']) =
    some { cmd := 2#32, x := 0x3F800000#32, y := 0#32 } := by decide

theorem test_assemble_needs_y : assemble (ascii ['S', '.', 'A', 'D', 'D', ' ', '0', 'x', '3', 'f', '8', '0', '0', '0', '0', '0']) = none := by decide

/-- 95 section 2.6, last row: an `ID` line that writes the port `Y` too (log entry 7). -/
theorem test_assemble_id_with_y : assemble (ascii ['H', '.', 'I', 'D', ' ', '0', 'x', '3', 'C', '0', '0', ',', ' ', '0', 'x', 'F', 'F', 'F', 'F', 'F', 'F', 'F', 'F']) =
    some { cmd := 1#32, x := 0x3C00#32, y := 0xFFFFFFFF#32 } := by decide

theorem test_assembly_line : assemblyLine (.fxDiv 8 8) 0x100#32 0#32 =
    ascii ['F', 'X', '.', 'D', 'I', 'V', ' ', '8', ',', ' ', '8', ',', ' ', '0', 'x', '0', '0', '0', '0', '0', '1', '0', '0', ',', ' ', '0', 'x', '0', '0', '0', '0', '0', '0', '0', '0'] := by decide
/-! ## Witnesses: values that meet the hypotheses of each obligation, at boundary values for each clause -/

theorem witness_DecodeEncodeRoundTrip :
    (Instr.fxId 0 0).WellFormed ∧ (Instr.fxDiv 63 63).WellFormed ∧ Instr.hId.WellFormed ∧ Instr.sDiv.WellFormed := by
  decide

theorem witness_DecodedWordIsItsEncoding :
    decode 0x003F3F10#32 = .ok (.fxDiv 63 63) ∧ decode 0x00000000#32 = .ok (.fxId 0 0) ∧
      decode 0x00000012#32 = .ok .sDiv := by
  decide

/-- Both sides hold of a word of the first row with every free bit set and of the one word of the last row. -/
theorem witness_OpcodeMapSelectsOperation :
    opcodeMap.length = 15 ∧
    (0x003F3F00#32 &&& 0xFFC0C0FF#32 = 0x00000000#32 ∧ decode 0x003F3F00#32 = .ok (.fxId 63 63)) ∧
    (0x00000012#32 &&& 0xFFFFFFFF#32 = 0x00000012#32 ∧ decode 0x00000012#32 = .ok .sDiv) := by
  decide

/-- A request outside the contract by each of the reasons of R77, at its boundary. -/
theorem witness_RefusedExactlyOutsideContract_refused :
    (one 0x00000080#32 0#32 0#32).requests = [⟨0x00000080#32, 0#32, 0#32⟩] ∧
    ∀ r ∈ [(⟨0x00000080#32, 0#32, 0#32⟩ : Request), ⟨0x00000003#32, 0#32, 0#32⟩, ⟨0x00000014#32, 0#32, 0#32⟩,
      ⟨0x00000020#32, 0#32, 0#32⟩, ⟨0x00010001#32, 0#32, 0#32⟩, ⟨0x00002000#32, 0#32, 0#32⟩,
      ⟨0x00000001#32, 0x10000#32, 0#32⟩, ⟨0x00000005#32, 0#32, 0x10000#32⟩], r.OutsideContract := by
  unfold Request.OutsideContract ReservedBitsSet; decide

/-- Requests within the contract: `a + b = 32`, `a + b = 33` with `a = 0`, an `H.ID` with a wide `Y`. -/
theorem witness_RefusedExactlyOutsideContract_answered :
    (one 0x001F0100#32 0#32 0#32).requests = [⟨0x001F0100#32, 0#32, 0#32⟩] ∧
    ∀ r ∈ [(⟨0x001F0100#32, 0#32, 0#32⟩ : Request), ⟨0x00210000#32, 0#32, 0#32⟩,
      ⟨0x00000001#32, 0xFFFF#32, 0xFFFFFFFF#32⟩], ¬ r.OutsideContract := by
  unfold Request.OutsideContract ReservedBitsSet; decide

/-- The malformed request with an outcome: `a + b = 33` with `a = 0`. -/
theorem witness_RefusedExactlyOutsideContract_overflow :
    ¬ (⟨0x00210000#32, 0#32, 0#32⟩ : Request).OutsideContract ∧ cmdField 0x00210000#32 1 0 = 0 ∧
      32 < cmdField 0x00210000#32 13 8 + cmdField 0x00210000#32 21 16 := by
  unfold Request.OutsideContract ReservedBitsSet; decide

/-- One command word for each of the five clauses. -/
theorem witness_DecodeRefusalsInOrder :
    ReservedBitsSet 0x00400023#32 ∧
    (¬ ReservedBitsSet 0x0000007F#32 ∧ cmdField 0x0000007F#32 1 0 = 3) ∧
    (¬ ReservedBitsSet 0x00000074#32 ∧ cmdField 0x00000074#32 1 0 ≠ 3 ∧ 5 ≤ cmdField 0x00000074#32 4 2) ∧
    (¬ ReservedBitsSet 0x00212131#32 ∧ cmdField 0x00212131#32 1 0 ≠ 3 ∧ cmdField 0x00212131#32 4 2 < 5 ∧
      cmdField 0x00212131#32 6 5 ≠ 0) ∧
    (¬ ReservedBitsSet 0x00010002#32 ∧ cmdField 0x00010002#32 1 0 ≠ 3 ∧ cmdField 0x00010002#32 4 2 < 5 ∧
      cmdField 0x00010002#32 6 5 = 0 ∧ cmdField 0x00010002#32 1 0 ≠ 0 ∧
      (cmdField 0x00010002#32 13 8 ≠ 0 ∨ cmdField 0x00010002#32 21 16 ≠ 0)) := by
  unfold ReservedBitsSet; decide

theorem witness_StepRunsDecodedInstruction :
    (one 0x00000012#32 0#32 0#32).requests = [⟨0x00000012#32, 0#32, 0#32⟩] ∧
      decode 0x00000012#32 = .ok .sDiv ∧ decode 0x00000013#32 = .error .reservedFmt := by
  decide

theorem witness_StepEndsWithoutRequest : State.reset.requests = [] := rfl

/-- A state that meets the invariant with a response given already, and whose step answers. -/
theorem witness_StepKeepsInvariant :
    ({ one 0x00000005#32 1#32 1#32 with
        responses := [.fail .divByZero, .ok 0#32 4#3 (ascii ['n', 'a', 'n'])] } : State).Inv ∧
      (answer (step (one 0x00000005#32 1#32 1#32))).isSome = true := by
  unfold State.Inv; decide

/-- A failure and an OK response: both are next states. -/
theorem witness_ExecFrame :
    (answer (exec (.fxAdd 63 63) (one 0#32 0#32 0#32))).isSome = true ∧
      (answer (exec .sDiv (one 0#32 0#32 0#32))).isSome = true := by
  decide

theorem witness_StepTakesOneGivesOne :
    (answer (step (one 0x00000010#32 0#32 0#32))) = none ∧
      (answer (step (one 0x00041C10#32 0#32 0#32))) = some (.fail .divByZero) := by
  decide

/-- Two states that differ in everything but the oldest request and the parameters. -/
theorem witness_ResponseDependsOnRequestAlone :
    (one 0x12#32 1#32 2#32).requests = ⟨0x12#32, 1#32, 2#32⟩ :: [] ∧
    (State.mk defaultParams [⟨0x12#32, 1#32, 2#32⟩, ⟨3#32, 0#32, 0#32⟩] [.fail .divByZero]).requests =
      ⟨0x12#32, 1#32, 2#32⟩ :: [⟨3#32, 0#32, 0#32⟩] ∧
    (one 0x12#32 1#32 2#32).params = defaultParams := by
  decide

/-- A run of two requests within the contract, the first of which fails. -/
theorem witness_RunMapsRequestsToResponses :
    ∀ q ∈ [(⟨0x00080810#32, 0x100#32, 0#32⟩ : Request), ⟨0x00080800#32, 0xFF80#32, 0#32⟩], ¬ q.OutsideContract := by
  unfold Request.OutsideContract ReservedBitsSet; decide

/-- `FX.ID`: a pair above the bound, and two in the legal range. -/
theorem witness_FxIdResult :
    (one 0#32 7#32 9#32).requests = [⟨0#32, 7#32, 9#32⟩] ∧ 32 < 0 + 33 ∧ (1 ≤ 1 ∧ 1 ≤ 31 ∧ 1 + 31 ≤ 32) ∧
      (1 ≤ 31 ∧ 1 ≤ 1 ∧ 31 + 1 ≤ 32) := by
  decide

/-- `FX.ADD`: a pair above the bound, and two in the legal range. -/
theorem witness_FxAddResult :
    (one 0#32 7#32 9#32).requests = [⟨0#32, 7#32, 9#32⟩] ∧ 32 < 33 + 0 ∧ (1 ≤ 1 ∧ 1 ≤ 1 ∧ 1 + 1 ≤ 32) ∧
      (1 ≤ 16 ∧ 1 ≤ 16 ∧ 16 + 16 ≤ 32) := by
  decide

/-- `FX.SUB`: a pair above the bound, and two in the legal range. -/
theorem witness_FxSubResult :
    (one 0#32 7#32 9#32).requests = [⟨0#32, 7#32, 9#32⟩] ∧ 32 < 1 + 32 ∧ (1 ≤ 1 ∧ 1 ≤ 31 ∧ 1 + 31 ≤ 32) ∧
      (1 ≤ 1 ∧ 1 ≤ 1 ∧ 1 + 1 ≤ 32) := by
  decide

/-- `FX.MUL`: a pair above the bound, and two in the legal range. -/
theorem witness_FxMulResult :
    (one 0#32 7#32 9#32).requests = [⟨0#32, 7#32, 9#32⟩] ∧ 32 < 63 + 63 ∧ (1 ≤ 31 ∧ 1 ≤ 1 ∧ 31 + 1 ≤ 32) ∧
      (1 ≤ 4 ∧ 1 ≤ 4 ∧ 4 + 4 ≤ 32) := by
  decide

/-- The three clauses of `FX.DIV`, on a port that is not 0 but normalises to 0, and on one that does not. -/
theorem witness_FxDivResult :
    (one 0#32 1#32 0x10000#32).requests = [⟨0#32, 1#32, 0x10000#32⟩] ∧ 32 < 32 + 1 ∧
    (1 ≤ 8 ∧ 1 ≤ 8 ∧ 8 + 8 ≤ 32 ∧ (0x10000#32).toNat % 2 ^ (8 + 8) = 0) ∧
    (1 ≤ 8 ∧ 1 ≤ 9 ∧ 8 + 9 ≤ 32 ∧ (0x10000#32).toNat % 2 ^ (8 + 9) ≠ 0) := by
  decide

theorem witness_FxRangeRefused :
    (one 0#32 0#32 0#32).requests = [⟨0#32, 0#32, 0#32⟩] ∧ (0 + 32 ≤ 32 ∧ (0 = 0 ∨ 32 = 0)) ∧
      (32 + 0 ≤ 32 ∧ (32 = 0 ∨ 0 = 0)) ∧ Instr.fxDiv 0 32 ∈ fxOperations 0 32 := by
  decide

theorem witness_FailuresAreTheTwoKinds :
    (one 0#32 0#32 0#32).requests = [⟨0#32, 0#32, 0#32⟩] ∧ (32 < 33 + 0 ∧ Instr.fxId 33 0 ∈ fxOperations 33 0) ∧
      (1 ≤ 1 ∧ 1 ≤ 31 ∧ 1 + 31 ≤ 32 ∧ (0#32).toNat % 2 ^ (1 + 31) = 0) := by
  decide

/-- A width of 1 with both patterns, and a width of 8 with a pattern that is not the most negative one. -/
theorem witness_FxNormalizeAndNegateLaws : 1 ≤ 1 ∧ (0 < 2 ^ 1 ∧ 0 ≠ 2 ^ (1 - 1)) ∧ (255 < 2 ^ 8 ∧ 255 ≠ 2 ^ (8 - 1)) := by
  decide

/-- The most negative pattern of `Q(4,4)`. -/
theorem witness_FxSignMagnitude : 1 ≤ 8 ∧ 0x80 < 2 ^ 8 ∧ fxVal 8 0x80 < 0 ∧ fxSignmag 8 0x80 = (true, 0x80) := by decide

/-- Sums and differences at both ends of the range of `Q(4,4)`. -/
theorem witness_FxAddSubModular :
    (1 ≤ 8 ∧ 0x7F < 2 ^ 8 ∧ 0x80 < 2 ^ 8) ∧
    (-(2 : Int) ^ 7 ≤ fxVal 8 0x80 + fxVal 8 0 ∧ fxVal 8 0x80 + fxVal 8 0 < 2 ^ 7) ∧
    (-(2 : Int) ^ 7 ≤ fxVal 8 0x7F - fxVal 8 0 ∧ fxVal 8 0x7F - fxVal 8 0 < 2 ^ 7) := by
  decide

/-- In `Q(4,4)`: equal signs, unequal signs, zero operands, a magnitude `t` inside its range, and `t = 0`. -/
theorem witness_FxMulDivSigns :
    (1 ≤ 4 ∧ 1 ≤ 4 ∧ 0xFF < 2 ^ (4 + 4)) ∧
    (fxVal 8 0x80 < 0 ↔ fxVal 8 0xFF < 0) ∧ ¬ (fxVal 8 0x80 < 0 ↔ fxVal 8 0x7F < 0) ∧
    (0 < (fxVal 8 0xF8).natAbs * (fxVal 8 0x18).natAbs / 2 ^ 4 ∧
      (fxVal 8 0xF8).natAbs * (fxVal 8 0x18).natAbs / 2 ^ 4 < 2 ^ 7) ∧
    (fxVal 8 0xFF).natAbs * (fxVal 8 1).natAbs / 2 ^ 4 = 0 ∧ (0xFF ≠ 0 ∧ (0 : Nat) = 0) := by
  decide

/-- A tie at `b = 4`, no tie at `b = 4`, and the largest `b` with exact quotients. -/
theorem witness_FxRoundingByTie :
    (1 ≤ 4 ∧ 1 < 2 ^ 4 ∧ 1 * 1000 % 2 ^ 4 = 2 ^ (4 - 1)) ∧ (1 ≤ 4 ∧ 2 < 2 ^ 4 ∧ 2 * 1000 % 2 ^ 4 ≠ 2 ^ (4 - 1)) ∧
      (1 ≤ 3 ∧ 7 < 2 ^ 3 ∧ 3 ≤ 3) := by
  decide

theorem witness_FxRenderWhole :
    (1 ≤ 1 ∧ 1 ≤ 31 ∧ 0x80000000 < 2 ^ (1 + 31)) ∧ (1 ≤ 16 ∧ 1 ≤ 16 ∧ 0xFFFFFFFF < 2 ^ (16 + 16)) := by
  decide

theorem witness_FxMostNegativeText : 1 ≤ 1 ∧ 1 ≤ 31 := by decide

theorem witness_FxTextLength : 1 ≤ 31 ∧ 1 ≤ 1 ∧ 31 + 1 ≤ 32 ∧ 0xFFFFFFFF < 2 ^ (31 + 1) := by decide

theorem witness_NumeralsReadBack : 10 ≠ 0 ∧ 0xFFF < 16 ^ 3 := by decide

theorem half_isUnit : half.IsUnit := .inl rfl

theorem single_isUnit : single.IsUnit := .inr rfl

theorem witness_FloatFieldsOfPattern : half.Pattern 0xFFFF ∧ single.Pattern 0xFFFFFFFF := by decide

/-- One pattern of each class, in both units. -/
theorem witness_ExactlyOneClass :
    half.classify 0x8000 = .zero ∧ half.classify 0x03FF = .denormal ∧ half.classify 0x7BFF = .normal ∧
      half.classify 0xFC00 = .infinity ∧ half.classify 0x7C01 = .nan ∧ single.classify 0x80000000 = .zero ∧
      single.classify 0x007FFFFF = .denormal ∧ single.classify 0x7F7FFFFF = .normal ∧
      single.classify 0xFF800000 = .infinity ∧ single.classify 0x7F800001 = .nan := by
  decide

theorem witness_NanOperandGivesCanonicalNan : half.classify 0x7C01 = .nan ∨ half.classify 0 = .nan := by decide

/-- The four clauses: two infinities of one sign, of two signs, one on the left, one on the right. -/
theorem witness_AddSubInfinities :
    (half.classify 0x7C00 ≠ .nan ∧ half.classify 0x7C00 = .infinity ∧ half.sign 0x7C00 = half.sign 0x7C00) ∧
    (half.classify 0xFC00 = .infinity ∧ half.sign 0x7C00 ≠ half.sign 0xFC00) ∧
    (half.classify 0x7BFF ≠ .nan ∧ half.classify 0x7BFF ≠ .infinity) := by
  decide

/-- Finite patterns of both signs, zeros and the largest value among them. -/
theorem witness_AddSubSignTables :
    half.Finite 0x7BFF ∧ half.Finite 0x8000 ∧ half.sign 0x7BFF = false ∧ half.sign 0x8000 = true ∧ half.Finite 0 ∧
      half.sign 0 = false ∧ half.Finite 0xFBFF ∧ half.sign 0xFBFF = true := by
  decide

theorem witness_SubIsAddOfNegate : half.Pattern 0xFC01 ∧ half.Pattern 0x8000 := by decide

theorem witness_SignReductionConsistency :
    half.Pattern 0x7C00 ∧ half.Pattern 0x0001 ∧ half.classify 0x7C00 ≠ .nan ∧ half.classify 0x0001 ≠ .nan ∧
    ¬ (half.classify 0x7C00 = .infinity ∧ half.classify 0x7C00 = .infinity ∧ half.sign 0x7C00 ≠ half.sign 0x7C00) ∧
    ¬ (half.classify 0x7C00 = .infinity ∧ half.classify 0xFC00 = .infinity ∧ half.sign 0x7C00 = half.sign 0xFC00) := by
  decide

theorem witness_SignedZerosOfAddSub :
    (0x7BFF < half.inf ∧ 0 < half.inf) ∧
    (half.Pattern 0x8001 ∧ half.Finite 0x8001 ∧ half.isZero 0x8001 = false) ∧
    (half.Pattern 0x7BFF ∧ half.Pattern 0xFBFF ∧ half.Finite 0x7BFF ∧ half.Finite 0xFBFF ∧
      half.isZero (half.add 0x7E00 0x7BFF 0xFBFF) = true ∧ half.isZero (half.sub 0x7E00 0x7BFF 0x7BFF) = true ∧
      half.isZero (half.add 0x7E00 0 0) = true ∧ half.isZero (half.sub 0x7E00 0 0x8000) = true) := by
  decide

/-- A pair of patterns for each of the five clauses, at the edges of the classes. -/
theorem witness_MulClassTable :
    (half.classify 0x7C01 = .nan) ∧
    (half.classify 0x7C00 = .infinity ∧ half.classify 0x8000 = .zero) ∧
    (half.classify 0xFC00 = .infinity ∧ half.classify 0x0001 ≠ .nan ∧ half.classify 0x0001 ≠ .zero) ∧
    (half.classify 0x0000 = .zero ∧ half.classify 0x7BFF ≠ .nan ∧ half.classify 0x7BFF ≠ .infinity) ∧
    ((half.classify 0x0001 = .denormal ∨ half.classify 0x0001 = .normal) ∧
      (half.classify 0x7BFF = .denormal ∨ half.classify 0x7BFF = .normal)) := by
  decide

/-- A pair of patterns for each of the eight clauses, at the edges of the classes. -/
theorem witness_DivClassTable :
    (single.classify 0xFFFFFFFF = .nan) ∧
    (single.classify 0x80000000 = .zero ∧ single.classify 0 = .zero) ∧
    (single.classify 0x7F800000 = .infinity ∧ single.classify 0xFF800000 = .infinity) ∧
    (single.classify 0x7F7FFFFF ≠ .nan ∧ single.classify 0x7F7FFFFF ≠ .infinity ∧ single.classify 0x7F7FFFFF ≠ .zero) ∧
    ((single.classify 0x007FFFFF = .denormal ∨ single.classify 0x007FFFFF = .normal) ∧
      (single.classify 0x00800000 = .denormal ∨ single.classify 0x00800000 = .normal)) := by
  decide

theorem witness_SameSignAddTruncates :
    (half.Pattern 0x7BFF ∧ half.Finite 0x7BFF ∧ half.Pattern 0x0001 ∧ half.Finite 0x0001 ∧
      half.sign 0x7BFF = half.sign 0x0001) ∧
    (half.Pattern 0x8001 ∧ half.Finite 0x8001 ∧ half.sign 0x7BFF ≠ half.sign 0x8001) := by
  decide

/-- Different true exponents, equal true exponents, and a strict order of the operands. -/
theorem witness_MagnitudeSubtraction :
    (0x7BFF < half.inf ∧ 0x0001 ≤ 0x7BFF ∧ 0x0001 < 0x7BFF) ∧
      (0x0400 < half.inf ∧ 0x0001 ≤ 0x0400 ∧ (half.unpack 0x0400).1 = (half.unpack 0x0001).1) := by
  decide

theorem witness_MulTruncatesExactProduct :
    half.Pattern 0x7BFF ∧ half.Pattern 0x8001 ∧ half.Finite 0x7BFF ∧ half.Finite 0x8001 ∧ half.isZero 0x7BFF = false ∧
      half.isZero 0x8001 = false := by
  decide

/-- The clauses of the quotient: a result of `INF`, a finite one, and an integer quotient of at least `m + 1` bits. -/
theorem witness_DivNeverAboveQuotient :
    (half.Pattern 0x7BFF ∧ half.Pattern 0x0001 ∧ half.Finite 0x7BFF ∧ half.Finite 0x0001 ∧
      half.isZero 0x7BFF = false ∧ half.isZero 0x0001 = false ∧ half.div .nan 0x7E00 0x7BFF 0x0001 = half.inf) ∧
    (half.Pattern 0x3C00 ∧ half.Finite 0x3C00 ∧ half.isZero 0x3C00 = false ∧
      half.div .nan 0x7E00 0x3C00 0x3C00 ≠ half.inf ∧
      2 ^ half.m ≤ (half.unpack 0x3C00).2 * 2 ^ half.m / (half.unpack 0x3C00).2) := by
  decide

theorem witness_LessThanIsValueOrder :
    half.Pattern 0xFBFF ∧ half.Pattern 0x8000 ∧ half.Finite 0xFBFF ∧ half.Finite 0x8000 ∧
      half.lessThan 0xFBFF 0x8000 = true := by
  decide

theorem witness_RenderSpecialValues :
    half.classify 0xFFFF = .nan ∧ single.classify 0x7F800001 = .nan ∧ half.classify 0xFC00 = .infinity ∧
      single.classify 0x7F800000 = .infinity ∧ half.classify 0x8000 = .zero ∧ single.classify 0 = .zero := by
  decide

/-- The smallest denormal and the largest normal value. -/
theorem witness_RenderDenotesValue :
    (half.Pattern 0x8001 ∧ half.Finite 0x8001 ∧ half.isZero 0x8001 = false) ∧
      (single.Pattern 0x7F7FFFFF ∧ single.Finite 0x7F7FFFFF ∧ single.isZero 0x7F7FFFFF = false) := by
  decide

theorem witness_RenderInjective :
    half.Pattern 0x8000 ∧ half.classify 0x8000 ≠ .nan ∧ half.render 0x8000 = half.render 0x8000 ∧
      half.classify 0xFC01 = .nan := by
  decide

theorem witness_RenderLength : half.Pattern 0xFFFF ∧ single.Pattern 0xFFFFFFFF := by decide

theorem witness_FloatIdResults :
    (one 1#32 0xFFFF#32 0#32).requests = [⟨1#32, 0xFFFF#32, 0#32⟩] ∧ (0xFFFF#32).toNat < 2 ^ 16 := by decide

theorem witness_FloatAddSubResults :
    (one 5#32 0xFFFF#32 0#32).requests = [⟨5#32, 0xFFFF#32, 0#32⟩] ∧ (0xFFFF#32).toNat < 2 ^ 16 ∧
      (0#32).toNat < 2 ^ 16 := by decide

theorem witness_FloatMulDivResults :
    (one 13#32 0#32 0xFFFF#32).requests = [⟨13#32, 0#32, 0xFFFF#32⟩] ∧ (0#32).toNat < 2 ^ 16 ∧
      (0xFFFF#32).toNat < 2 ^ 16 := by decide

/-- The three clauses, at the bound of 16 bits on each side. -/
theorem witness_WideHalfOperandRefused :
    ((one 5#32 0x10000#32 0#32).requests = [⟨5#32, 0x10000#32, 0#32⟩] ∧ 2 ^ 16 ≤ (0x10000#32).toNat ∧
      Instr.hId ∈ [Instr.hId, .hAdd, .hSub, .hMul, .hDiv]) ∧
    ((one 5#32 0#32 0x10000#32).requests = [⟨5#32, 0#32, 0x10000#32⟩] ∧ Instr.hDiv ∈ [Instr.hAdd, .hSub, .hMul, .hDiv]) ∧
    ((one 1#32 0xFFFF#32 0x10000#32).requests = [⟨1#32, 0xFFFF#32, 0x10000#32⟩] ∧ (0xFFFF#32).toNat < 2 ^ 16) := by
  decide

theorem witness_IdentityIgnoresY :
    (one 1#32 0#32 0xFFFFFFFF#32).requests = [⟨1#32, 0#32, 0xFFFFFFFF#32⟩] ∧
      Instr.sId ∈ [Instr.fxId 1 1, .hId, .sId] := by
  decide

theorem witness_ResponseFieldsMatch :
    answer (exec .hAdd (one 5#32 1#32 1#32)) =
      some (.ok 2#32 1#3 (ascii ['0', 'x', '1', '.', '0', '0', '0', 'p', '-', '2', '3'])) := by
  decide

theorem witness_AssemblyLineReadsBack : (Instr.fxDiv 63 63).WellFormed ∧ Instr.sId.WellFormed := by decide

theorem witness_ResponseCodes :
    (ascii ['-', '0', 'x', '1', '.', '0', '0', '0', '0', '0', '0', 'p', '-', '1', '4', '9']).length ≤ 16 := by decide

end Sys2Proof.Tests
end

section
/-! The decimal and hexadecimal numerals read back as their numbers (00_scope.md R12). -/

namespace Sys2Proof

/-- Induction over the decimal digits of a number, the last digit first. -/
theorem decimal_digit_induction {P : Nat → Prop} (digit : ∀ k, k < 10 → P k)
    (more : ∀ k, 10 ≤ k → P (k / 10) → P k) (k : Nat) : P k := by
  induction k using Nat.strong_induction_on with
  | _ k ih =>
    by_cases h : k < 10
    · exact digit k h
    · exact more k (by omega) (ih (k / 10) (by omega))

theorem dec_of_lt_ten {k : Nat} (h : k < 10) : dec k = [digitByte k] := by
  rw [dec_eq, if_pos h]

theorem dec_of_ten_le {k : Nat} (h : 10 ≤ k) : dec k = dec (k / 10) ++ [digitByte (k % 10)] := by
  rw [dec_eq, if_neg (by omega)]

theorem dec_ne_nil (k : Nat) : dec k ≠ [] := by
  rw [dec_eq]
  split_ifs <;> simp

@[simp] theorem readDecimal_append_digit (t : List Byte) (c : Byte) :
    readDecimal (t ++ [c]) = readDecimal t * 10 + (c.toNat - 0x30) := by
  simp [readDecimal]

@[simp] theorem readHex_append_digit (t : List Byte) (c : Byte) :
    readHex (t ++ [c]) = readHex t * 16 + hexDigitValue c := by
  simp [readHex]

theorem readDecimal_dec (k : Nat) : readDecimal (dec k) = k := by
  induction k using decimal_digit_induction with
  | digit k h => simp [dec_of_lt_ten h, readDecimal, digitByte_toNat h]
  | more k h ih =>
    rw [dec_of_ten_le h, readDecimal_append_digit, ih, digitByte_toNat (Nat.mod_lt k (by decide))]
    omega

theorem dec_chars (k : Nat) : ∀ c ∈ dec k, 0x30 ≤ c.toNat ∧ c.toNat ≤ 0x39 := by
  have hdigit : ∀ d, d < 10 → 0x30 ≤ (digitByte d).toNat ∧ (digitByte d).toNat ≤ 0x39 := fun d hd => by
    rw [digitByte_toNat hd]; omega
  induction k using decimal_digit_induction with
  | digit k h => simpa [dec_of_lt_ten h] using hdigit k h
  | more k h ih =>
    intro c hc
    rw [dec_of_ten_le h, List.mem_append, List.mem_singleton] at hc
    obtain hc | rfl := hc
    · exact ih c hc
    · exact hdigit _ (Nat.mod_lt k (by decide))

/-- Dropping the last of several digits leaves the first one in place, and a single digit is 0 for `k = 0` alone. -/
theorem dec_head_ne_zero {k : Nat} (hk : k ≠ 0) : (dec k).head? ≠ some (digitByte 0) := by
  induction k using decimal_digit_induction with
  | digit k h =>
    intro hd
    have hbyte : digitByte k = digitByte 0 := by simpa [dec_of_lt_ten h] using hd
    have hcode := congrArg BitVec.toNat hbyte
    rw [digitByte_toNat h, digitByte_toNat (by decide)] at hcode
    omega
  | more k h ih =>
    rw [dec_of_ten_le h, List.head?_append_of_ne_nil _ (dec_ne_nil _)]
    exact ih (by omega)

theorem hexDigitsOf_length (D k : Nat) : (hexDigitsOf D k).length = D := by
  induction D generalizing k with
  | zero => rfl
  | succ D ih => simp [hexDigitsOf, ih]

theorem hexDigitsOf_chars (D k : Nat) : ∀ c ∈ hexDigitsOf D k,
    (0x30 ≤ c.toNat ∧ c.toNat ≤ 0x39) ∨ (0x61 ≤ c.toNat ∧ c.toNat ≤ 0x66) := by
  induction D generalizing k with
  | zero => simp [hexDigitsOf]
  | succ D ih =>
    intro c hc
    rw [hexDigitsOf, List.mem_append, List.mem_singleton] at hc
    obtain hc | rfl := hc
    · exact ih (k / 16) c hc
    · exact (hexDigitValue_digit (Nat.mod_lt k (by decide))).2

theorem readHex_hexDigitsOf {D k : Nat} (h : k < 16 ^ D) : readHex (hexDigitsOf D k) = k := by
  induction D generalizing k with
  | zero =>
    obtain rfl : k = 0 := by simpa using h
    rfl
  | succ D ih =>
    rw [pow_succ] at h
    rw [hexDigitsOf, readHex_append_digit, ih (by omega),
      (hexDigitValue_digit (Nat.mod_lt k (by decide))).1]
    omega

/-- Settles O30: each numeral by the recursion that writes it, one digit at the end at a time. -/
theorem numeralsReadBack : Obligations.NumeralsReadBack :=
  ⟨fun k => ⟨readDecimal_dec k, dec_chars k, dec_head_ne_zero, dec_of_lt_ten (by decide)⟩,
    fun D k h => ⟨readHex_hexDigitsOf h, hexDigitsOf_length D k, hexDigitsOf_chars D k⟩⟩

end Sys2Proof
end

section
/-! The length and the characters of the texts that CORE renders (00_scope.md R13, 30_encoding.md R76, 41_fixed_render.md
R137, 45_float_render.md R250), put together from those of their parts. -/

namespace Sys2Proof

/-- A text of `lo` to `hi` characters of the text alphabet (00_scope.md R13). -/
structure TextBetween (lo hi : Nat) (t : List Byte) : Prop where
  lower : lo ≤ t.length
  upper : t.length ≤ hi
  chars : ∀ c ∈ t, textByte c = true

/-- A legal OK response has a legal class code and a text of 3 to 16 characters. -/
theorem legal_ok_iff (r : Word) (c : BitVec 3) (t : List Byte) :
    (Machine.Response.ok r c t).legal = true ↔ c.toNat ≤ 4 ∧ TextBetween 3 16 t := by
  simp only [Machine.Response.legal, Bool.and_eq_true, decide_eq_true_eq, List.all_eq_true]
  exact ⟨fun ⟨⟨⟨hc, hlo⟩, hhi⟩, hchars⟩ => ⟨hc, hlo, hhi, hchars⟩,
    fun ⟨hc, hlo, hhi, hchars⟩ => ⟨⟨⟨hc, hlo⟩, hhi⟩, hchars⟩⟩

theorem TextBetween.append {l₁ h₁ l₂ h₂ : Nat} {t u : List Byte} (ht : TextBetween l₁ h₁ t)
    (hu : TextBetween l₂ h₂ u) : TextBetween (l₁ + l₂) (h₁ + h₂) (t ++ u) where
  lower := by simpa using Nat.add_le_add ht.lower hu.lower
  upper := by simpa using Nat.add_le_add ht.upper hu.upper
  chars c hc := (List.mem_append.mp hc).elim (ht.chars c) (hu.chars c)

theorem TextBetween.mono {lo hi lo' hi' : Nat} {t : List Byte} (ht : TextBetween lo hi t) (hlo : lo' ≤ lo)
    (hhi : hi ≤ hi') : TextBetween lo' hi' t :=
  ⟨hlo.trans ht.lower, ht.upper.trans hhi, ht.chars⟩

/-- A text written out in the spec, checked by evaluation. -/
theorem textBetween_ascii {n : Nat} {cs : List Char} (hn : cs.length = n) (h : (ascii cs).all textByte = true) :
    TextBetween n n (ascii cs) :=
  ⟨by simp [ascii, hn], by simp [ascii, hn], List.all_eq_true.mp h⟩

theorem textByte_digitByte {d : Nat} (h : d < 16) : textByte (digitByte d) = true :=
  digit_text (hexDigitValue_digit h).2

theorem dec_length_le {D k : Nat} (hD : 1 ≤ D) (hk : k < 10 ^ D) : (dec k).length ≤ D := by
  induction D, hD using Nat.le_induction generalizing k with
  | base => simp [dec_of_lt_ten (by simpa using hk)]
  | succ D hD ih =>
    by_cases h : k < 10
    · simp [dec_of_lt_ten h]
    · rw [pow_succ] at hk
      have hrest : (dec (k / 10)).length ≤ D := ih (by omega)
      simpa [dec_of_ten_le (Nat.le_of_not_lt h)] using hrest

theorem dec_textBetween {D k : Nat} (hD : 1 ≤ D) (hk : k < 10 ^ D) : TextBetween 1 D (dec k) :=
  ⟨List.length_pos_of_ne_nil (dec_ne_nil k), dec_length_le hD hk, fun c hc => digit_text (.inl (dec_chars k c hc))⟩

theorem hexDigitsOf_textBetween (D k : Nat) : TextBetween D D (hexDigitsOf D k) :=
  ⟨(hexDigitsOf_length D k).ge, (hexDigitsOf_length D k).le, fun c hc => digit_text (hexDigitsOf_chars D k c hc)⟩

/-- A minus sign that stands there or not. -/
theorem optional_minus_textBetween (p : Prop) [Decidable p] : TextBetween 0 1 (if p then ascii ['-'] else []) := by
  split_ifs
  · exact (textBetween_ascii rfl (by decide)).mono (by decide) (by decide)
  · exact ⟨le_rfl, by decide, by simp⟩

/-! ### The fixed-point text -/

theorem threeDigits_textBetween {d : Nat} (h : d < 1000) : TextBetween 3 3 (threeDigits d) := by
  refine ⟨le_rfl, le_rfl, fun c hc => ?_⟩
  simp only [threeDigits, List.mem_cons, List.not_mem_nil, or_false] at hc
  obtain rfl | rfl | rfl := hc <;> exact textByte_digitByte (by omega)

theorem fxSignmag_snd_lt {n v : Nat} (hv : v < 2 ^ n) : (fxSignmag n v).2 < 2 ^ n := by
  unfold fxSignmag
  split_ifs
  · exact fxNormalize_lt n _
  · exact hv

/-- The carry out of the fraction adds at most one to the integer part. -/
theorem fxParts_bounds (t : FxTie) {b mag : Nat} (hb : 1 ≤ b) :
    (fxParts t b mag).1 ≤ mag / 2 ^ b + 1 ∧ (fxParts t b mag).2 < 1000 := by
  have hround := roundScaled_le t b (mag % 2 ^ b) hb (Nat.mod_lt _ (by positivity))
  rw [fxParts_eq t b mag hb]
  constructor <;> dsimp only <;> omega

/-- The integer part of a rendered pattern has at most ten digits, as the widest format gives. -/
theorem fxParts_fst_lt (t : FxTie) {a b v : Nat} (hb : 1 ≤ b) (hab : a + b ≤ 32) (hv : v < 2 ^ (a + b)) :
    (fxParts t b (fxSignmag (a + b) v).2).1 < 10 ^ 10 := by
  have hmag : (fxSignmag (a + b) v).2 / 2 ^ b < 2 ^ a := by
    rw [Nat.div_lt_iff_lt_mul (by positivity), ← pow_add]
    exact fxSignmag_snd_lt hv
  have hpow : 2 ^ a ≤ 2 ^ 31 := Nat.pow_le_pow_right (by decide) (by omega)
  have hint := (fxParts_bounds t (mag := (fxSignmag (a + b) v).2) hb).1
  omega

/-- A fixed-point text has 5 to 15 characters (41_fixed_render.md R137). -/
theorem fxRender_textBetween (t : FxTie) {a b v : Nat} (hb : 1 ≤ b) (hab : a + b ≤ 32) (hv : v < 2 ^ (a + b)) :
    TextBetween 5 15 (fxRender t a b v) :=
  have hpoint : TextBetween 1 1 (ascii ['.']) := textBetween_ascii rfl (by decide)
  (((optional_minus_textBetween _).append (dec_textBetween (by decide) (fxParts_fst_lt t hb hab hv))).append
    hpoint).append (threeDigits_textBetween (fxParts_bounds t hb).2)

/-! ### The floating text -/

theorem exponentText_textBetween {E : Nat} {ex : Int} (hE : 1 ≤ E) (hex : ex.natAbs < 10 ^ E) :
    TextBetween 2 (E + 1) (exponentText ex) := by
  have hsign : TextBetween 1 1 (if 0 ≤ ex then ascii ['+'] else ascii ['-']) := by
    split_ifs <;> exact textBetween_ascii rfl (by decide)
  exact (hsign.append (dec_textBetween hE hex)).mono le_rfl (by omega)

theorem finiteText_textBetween (f : BF) {E : Nat} {p : Nat × Int} (hE : 1 ≤ E) (hp : p.2.natAbs < 10 ^ E) :
    TextBetween 3 (f.hexDigits + 6 + E) (f.finiteText p) := by
  have hlead : TextBetween 4 4 (ascii ['0', 'x', '1', '.']) := textBetween_ascii rfl (by decide)
  have hmark : TextBetween 1 1 (ascii ['p']) := textBetween_ascii rfl (by decide)
  exact (((hlead.append (hexDigitsOf_textBetween _ _)).append hmark).append (exponentText_textBetween hE hp)).mono
    (by omega) (by omega)

theorem zeroText_textBetween (f : BF) : TextBetween 3 (f.hexDigits + 7) f.zeroText := by
  have hlead : TextBetween 4 4 (ascii ['0', 'x', '0', '.']) := textBetween_ascii rfl (by decide)
  have hzeros : TextBetween f.hexDigits f.hexDigits (List.replicate f.hexDigits (digitByte 0)) :=
    ⟨by simp, by simp, fun c hc => by rw [List.eq_of_mem_replicate hc]; decide⟩
  have hexp : TextBetween 3 3 (ascii ['p', '+', '0']) := textBetween_ascii rfl (by decide)
  exact ((hlead.append hzeros).append hexp).mono (by omega) (by omega)

/-- A floating text whose displayed exponent has at most `E` digits, branch by branch of the renderer. -/
theorem render_textBetween (f : BF) {E v : Nat} (hE : 1 ≤ E) (hd : (f.denormalParts v).2.natAbs < 10 ^ E)
    (hn : (f.normalParts v).2.natAbs < 10 ^ E) : TextBetween 3 (f.hexDigits + 7 + E) (f.render v) := by
  unfold BF.render
  extract_lets neg
  have signed {t : List Byte} (ht : TextBetween 3 (f.hexDigits + 6 + E) t) :
      TextBetween 3 (f.hexDigits + 7 + E) (neg ++ t) :=
    ((optional_minus_textBetween _).append ht).mono (by omega) (by omega)
  split_ifs
  · have hnan : TextBetween 3 3 (ascii ['n', 'a', 'n']) := textBetween_ascii rfl (by decide)
    exact hnan.mono le_rfl (by omega)
  · have hinf : TextBetween 3 3 (ascii ['i', 'n', 'f']) := textBetween_ascii rfl (by decide)
    exact signed (hinf.mono le_rfl (by omega))
  · exact signed ((zeroText_textBetween f).mono le_rfl (by omega))
  · exact signed (finiteText_textBetween f hE hd)
  · exact signed (finiteText_textBetween f hE hn)

/-- The displayed exponent of a denormal value lies at most `m` below `emin`. -/
theorem denormalParts_exponent (f : BF) (v : Nat) :
    f.emin - f.m ≤ (f.denormalParts v).2 ∧ (f.denormalParts v).2 ≤ f.emin := by
  unfold BF.denormalParts
  constructor <;> dsimp only <;> omega

/-- The displayed exponent of a normal value is its exponent field without the bias. -/
theorem normalParts_exponent {f : BF} (hf : f.IsUnit) (v : Nat) :
    -(f.bias : Int) ≤ (f.normalParts v).2 ∧ (f.normalParts v).2 ≤ (f.expMax : Int) - f.bias := by
  have hle := expf_le hf v
  unfold BF.normalParts
  constructor <;> dsimp only <;> omega

/-- A half-precision text has 3 to 12 characters (45_float_render.md R250). -/
theorem render_half_textBetween (v : Nat) : TextBetween 3 12 (half.render v) := by
  have hemin : half.emin = -14 := by decide
  have hm : half.m = 10 := rfl
  have hbias : half.bias = 15 := by decide
  have hmax : half.expMax = 31 := by decide
  have hden := denormalParts_exponent half v
  have hnor := normalParts_exponent (.inl rfl : half.IsUnit) v
  exact render_textBetween half (E := 2) (by decide) (by omega) (by omega)

/-- A single-precision text has 3 to 16 characters (45_float_render.md R250). -/
theorem render_single_textBetween (v : Nat) : TextBetween 3 16 (single.render v) := by
  have hemin : single.emin = -126 := by decide
  have hm : single.m = 23 := rfl
  have hbias : single.bias = 127 := by decide
  have hmax : single.expMax = 255 := by decide
  have hden := denormalParts_exponent single v
  have hnor := normalParts_exponent (.inr rfl : single.IsUnit) v
  exact render_textBetween single (E := 3) (by decide) (by omega) (by omega)

theorem render_unit_textBetween {f : BF} (hf : f.IsUnit) (v : Nat) : TextBetween 3 16 (f.render v) := by
  obtain rfl | rfl := hf
  · exact (render_half_textBetween v).mono le_rfl (by decide)
  · exact render_single_textBetween v

end Sys2Proof
end

section
/-! Every response an operation gives is legal, and so a step keeps the invariant of a run (10_state.md R29). -/

namespace Sys2Proof

theorem fxApplySign_lt (n : Nat) (s : Bool) (p : Nat) : fxApplySign n s p < 2 ^ n := by
  unfold fxApplySign
  split_ifs <;> exact fxNormalize_lt n _

theorem fxMul_lt (a b x y : Nat) : fxMul a b x y < 2 ^ (a + b) := fxApplySign_lt _ _ _

theorem fxDiv_lt (a b x y : Nat) : fxDiv a b x y < 2 ^ (a + b) := fxApplySign_lt _ _ _

namespace Machine

theorem fxResponse_legal (t : FxTie) {a b r : Nat} (hb : 1 ≤ b) (hab : a + b ≤ 32) (hr : r < 2 ^ (a + b)) :
    (fxResponse t a b r).legal = true :=
  (legal_ok_iff _ _ _).mpr ⟨by decide, (fxRender_textBetween t hb hab hr).mono (by decide) (by decide)⟩

theorem classCode_le (c : FloatClass) : (classCode c).toNat ≤ 4 := by
  cases c <;> decide

theorem floatResponse_legal {f : BF} (hf : f.IsUnit) (r : Nat) : (floatResponse f r).legal = true :=
  (legal_ok_iff _ _ _).mpr ⟨classCode_le _, render_unit_textBetween hf r⟩

/-- The step from `s` to `t` takes the oldest request and gives one legal response to it. -/
def AnswersLegally (s t : State) : Prop :=
  ∃ req rest r, s.requests = req :: rest ∧ t = s.answered rest r ∧ r.legal = true

/-- An FX request answers legally when its operation gives patterns of the format. -/
theorem fxRequest_answersLegally {a b : Nat} {op : Nat → Nat → Except Failure Nat} {s t : State}
    (hop : ∀ x y r, x < 2 ^ (a + b) → op x y = .ok r → r < 2 ^ (a + b)) (h : fxRequest a b op s = .next t) :
    AnswersLegally s t := by
  obtain ⟨req, rest, hr, ⟨-, ht⟩ | ⟨-, hb, hab, ht⟩⟩ := fxRequest_next h
  · exact ⟨req, rest, _, hr, ht, rfl⟩
  · refine ⟨req, rest, _, hr, ht, ?_⟩
    split
    next e _ => rfl
    next r hres => exact fxResponse_legal _ hb hab (hop _ _ r (fxNormalize_lt _ _) hres)

theorem floatUnary_answersLegally {f : BF} (hf : f.IsUnit) {op : Nat → Nat} {s t : State}
    (h : floatUnary f op s = .next t) : AnswersLegally s t := by
  obtain ⟨req, rest, hr, -, ht⟩ := floatUnary_next h
  exact ⟨req, rest, _, hr, ht, floatResponse_legal hf _⟩

theorem floatBinary_answersLegally {f : BF} (hf : f.IsUnit) {op : Nat → Nat → Nat} {s t : State}
    (h : floatBinary f op s = .next t) : AnswersLegally s t := by
  obtain ⟨req, rest, hr, -, -, ht⟩ := floatBinary_next h
  exact ⟨req, rest, _, hr, ht, floatResponse_legal hf _⟩

/-- Every operation that answers gives one legal response: the FX results are patterns of their format, and a floating
text is legal whatever the result. -/
theorem exec_answersLegally (i : Instr) {s t : State} (h : exec i s = .next t) : AnswersLegally s t := by
  have hhalf : half.IsUnit := .inl rfl
  have hsingle : single.IsUnit := .inr rfl
  cases i with
  | fxId a b =>
    refine fxRequest_answersLegally (fun x y r hx hr => ?_) (exec_fxId a b s ▸ h)
    cases hr; exact hx
  | fxAdd a b =>
    refine fxRequest_answersLegally (fun x y r _ hr => ?_) (exec_fxAdd a b s ▸ h)
    cases hr; exact fxNormalize_lt _ _
  | fxSub a b =>
    refine fxRequest_answersLegally (fun x y r _ hr => ?_) (exec_fxSub a b s ▸ h)
    cases hr; exact fxNormalize_lt _ _
  | fxMul a b =>
    refine fxRequest_answersLegally (fun x y r _ hr => ?_) (exec_fxMul a b s ▸ h)
    cases hr; exact fxMul_lt a b x y
  | fxDiv a b =>
    refine fxRequest_answersLegally (fun x y r _ hr => ?_) (exec_fxDiv a b s ▸ h)
    split at hr
    · cases hr
    · cases hr; exact fxDiv_lt a b x y
  | hId => exact floatUnary_answersLegally hhalf (exec_hId s ▸ h)
  | hAdd => exact floatBinary_answersLegally hhalf (exec_hAdd s ▸ h)
  | hSub => exact floatBinary_answersLegally hhalf (exec_hSub s ▸ h)
  | hMul => exact floatBinary_answersLegally hhalf (exec_hMul s ▸ h)
  | hDiv => exact floatBinary_answersLegally hhalf (exec_hDiv s ▸ h)
  | sId => exact floatUnary_answersLegally hsingle (exec_sId s ▸ h)
  | sAdd => exact floatBinary_answersLegally hsingle (exec_sAdd s ▸ h)
  | sSub => exact floatBinary_answersLegally hsingle (exec_sSub s ▸ h)
  | sMul => exact floatBinary_answersLegally hsingle (exec_sMul s ▸ h)
  | sDiv => exact floatBinary_answersLegally hsingle (exec_sDiv s ▸ h)

theorem AnswersLegally.inv {s t : State} (h : AnswersLegally s t) (hs : s.Inv) : t.Inv := by
  obtain ⟨req, rest, r, -, rfl, hlegal⟩ := h
  obtain ⟨hparams, hresponses⟩ := hs
  refine ⟨hparams, fun q hq => ?_⟩
  rw [answered_responses, List.mem_append, List.mem_singleton] at hq
  obtain hq | rfl := hq
  · exact hresponses q hq
  · exact hlegal

/-- Settles O10: a step that answers ran an operation, and every operation that answers adds one legal response and keeps
the parameters. -/
theorem stepKeepsInvariant : Obligations.StepKeepsInvariant := by
  intro s t hs hstep
  obtain ⟨req, rest, i, -, -, hexec⟩ := step_next hstep
  exact (exec_answersLegally i hexec).inv hs

end Machine
end Sys2Proof
end

section
/-! What an answered request leaves unchanged (10_state.md R19, R20): the parameters, the requests behind the oldest one
and the responses given before. -/

namespace Sys2Proof.Machine

/-- An answer takes the oldest request, appends one response and changes nothing else. -/
theorem AnswersLegally.frame {s t : State} (h : AnswersLegally s t) :
    ∃ req r, s.requests = req :: t.requests ∧ t = s.answered t.requests r := by
  obtain ⟨req, rest, r, hreq, rfl, -⟩ := h
  exact ⟨req, r, hreq, by rw [answered_requests]⟩

/-- Settles O11: whichever operation it is, the next state is an answer to the oldest request. -/
theorem execFrame : Obligations.ExecFrame :=
  fun i _ _ hexec => (exec_answersLegally i hexec).frame

/-- Settles O12: a step that answers ran an operation at the same state, and so has that operation's frame. -/
theorem stepTakesOneGivesOne : Obligations.StepTakesOneGivesOne := by
  intro s t hstep
  obtain ⟨_, _, i, -, -, hexec⟩ := step_next hstep
  exact execFrame i s t hexec

end Sys2Proof.Machine
end

section
/-! The outcome of a step is fixed by the parameters and the oldest request (20_memory.md R45): neither the requests
behind it nor the responses given before have a part in it. -/

namespace Sys2Proof.Machine

/-- At the parameters `p`, `run` answers the oldest request `req` with one and the same response at every state, or
refuses it under one and the same name at every state. -/
def FixedByRequest (p : Params) (req : Request) (run : State → StepOutcome) : Prop :=
  (∃ r, ∀ s rest, s.requests = req :: rest → s.params = p → run s = .next (s.answered rest r)) ∨
  (∃ e, ∀ s rest, s.requests = req :: rest → s.params = p → run s = .refused e)

section
variable (p : Params) (req : Request) {run : State → StepOutcome}

/-- The fields `a` and `b` choose between FormatOverflow, the refusal and the operation on the two port words. -/
theorem fixedByRequest_of_fxRequest {a b : Nat} {op : Nat → Nat → Except Failure Nat}
    (hrun : ∀ s, run s = fxRequest a b op s) : FixedByRequest p req run := by
  by_cases hov : 32 < a + b
  · exact .inl ⟨_, fun s rest h _ => (hrun s).trans (fxRequest_overflow h hov op)⟩
  by_cases h0 : a = 0 ∨ b = 0
  · exact .inr ⟨_, fun s rest h _ => (hrun s).trans (fxRequest_range h (by omega) h0 op)⟩
  · exact .inl ⟨_, fun s rest h hp =>
      hp ▸ (hrun s).trans (fxRequest_legal h (by omega) (by omega) (by omega) op)⟩

theorem fixedByRequest_of_floatUnary {f : BF} {op : Nat → Nat} (hrun : ∀ s, run s = floatUnary f op s) :
    FixedByRequest p req run := by
  by_cases hw : wideFor f req.x = true
  · exact .inr ⟨_, fun s rest h _ => by rw [hrun, floatUnary_cons h, if_pos hw]⟩
  · exact .inl ⟨_, fun s rest h _ => by rw [hrun, floatUnary_cons h, if_neg hw]⟩

/-- The operation `op` may read the parameters, which are the same at all the states spoken of. -/
theorem fixedByRequest_of_floatBinary {f : BF} (op : Params → Nat → Nat → Nat)
    (hrun : ∀ s, run s = floatBinary f (op s.params) s) : FixedByRequest p req run := by
  by_cases hw : (wideFor f req.x || wideFor f req.y) = true
  · exact .inr ⟨_, fun s rest h _ => by rw [hrun, floatBinary_cons h, if_pos hw]⟩
  · exact .inl ⟨_, fun s rest h hp => by rw [hrun, floatBinary_cons h, if_neg hw, hp]⟩

/-- Every operation is one of the three shapes of a request, and reads nothing of the state but the parameters and the
oldest request. -/
theorem exec_fixedByRequest (i : Instr) : FixedByRequest p req (exec i) := by
  cases i with
  | fxId a b => exact fixedByRequest_of_fxRequest p req (exec_fxId a b)
  | fxAdd a b => exact fixedByRequest_of_fxRequest p req (exec_fxAdd a b)
  | fxSub a b => exact fixedByRequest_of_fxRequest p req (exec_fxSub a b)
  | fxMul a b => exact fixedByRequest_of_fxRequest p req (exec_fxMul a b)
  | fxDiv a b => exact fixedByRequest_of_fxRequest p req (exec_fxDiv a b)
  | hId => exact fixedByRequest_of_floatUnary p req exec_hId
  | hAdd => exact fixedByRequest_of_floatBinary p req (fun q => half.add q.qnanH.toNat) exec_hAdd
  | hSub => exact fixedByRequest_of_floatBinary p req (fun q => half.sub q.qnanH.toNat) exec_hSub
  | hMul => exact fixedByRequest_of_floatBinary p req (fun q => half.mul q.qnanH.toNat) exec_hMul
  | hDiv => exact fixedByRequest_of_floatBinary p req (fun q => half.div q.divInfInf q.qnanH.toNat) exec_hDiv
  | sId => exact fixedByRequest_of_floatUnary p req exec_sId
  | sAdd => exact fixedByRequest_of_floatBinary p req (fun q => single.add q.qnanS.toNat) exec_sAdd
  | sSub => exact fixedByRequest_of_floatBinary p req (fun q => single.sub q.qnanS.toNat) exec_sSub
  | sMul => exact fixedByRequest_of_floatBinary p req (fun q => single.mul q.qnanS.toNat) exec_sMul
  | sDiv => exact fixedByRequest_of_floatBinary p req (fun q => single.div q.divInfInf q.qnanS.toNat) exec_sDiv

/-- The command word alone says which operation runs, or under which name the request is refused. -/
theorem step_fixedByRequest : FixedByRequest p req step := by
  cases hd : decode req.cmd with
  | error e => exact .inr ⟨refusalOf e, fun s rest h _ => by rw [step_cons h, hd]⟩
  | ok i =>
    have hstep : ∀ {s : State} {rest : List Request}, s.requests = req :: rest → step s = exec i s :=
      fun h => by rw [step_cons h, hd]
    obtain ⟨r, hr⟩ | ⟨e, he⟩ := exec_fixedByRequest p req i
    · exact .inl ⟨r, fun s rest h hp => (hstep h).trans (hr s rest h hp)⟩
    · exact .inr ⟨e, fun s rest h hp => (hstep h).trans (he s rest h hp)⟩

end

/-- Settles O13: the parameters and the oldest request fix the response or the refusal, so both states give it. -/
theorem responseDependsOnRequestAlone : Obligations.ResponseDependsOnRequestAlone := by
  intro s₁ s₂ req rest₁ rest₂ h₁ h₂ hp
  obtain ⟨r, hr⟩ | ⟨e, he⟩ := step_fixedByRequest s₂.params req
  · rw [hr s₁ rest₁ h₁ hp, hr s₂ rest₂ h₂ rfl]
    simp [answered_inj]
  · rw [he s₁ rest₁ h₁ hp, he s₂ rest₂ h₂ rfl]
    simp

end Sys2Proof.Machine
end

section
/-! The decoder and the encoder undo each other (30_encoding.md R61, R72, R81): a command word decodes to an operation
exactly when it is the encoding of that operation, and the opcode map says the same by masks. -/

namespace Sys2Proof

/-- A command word whose fields fit is decoded from those fields. -/
theorem decode_cmdWord {fmt op a b : Nat} (hf : fmt < 4) (ho : op < 8) (hab : FieldsFit a b) :
    decode (cmdWord fmt op a b) =
      decodeFields { fmt := fmt, op := op, rm := 0, a := a, b := b, rsvd7 := 0, rsvd14 := 0, rsvd22 := 0 } := by
  rw [decode, cmdWord_fields hf ho hab.1 hab.2]

theorem decode_cmdWord_fx {op a b : Nat} (ho : op < 5) (hab : FieldsFit a b) :
    decode (cmdWord 0 op a b) = fxOperation op a b := by
  have hop : ¬ 5 ≤ op := by omega
  rw [decode_cmdWord (by decide) (by omega) hab]
  simp [decodeFields, hop]

theorem decode_cmdWord_h {op : Nat} (ho : op < 5) : decode (cmdWord 1 op 0 0) = hOperation op := by
  have hop : ¬ 5 ≤ op := by omega
  rw [decode_cmdWord (by decide) (by omega) (by decide)]
  simp [decodeFields, hop]

theorem decode_cmdWord_s {op : Nat} (ho : op < 5) : decode (cmdWord 2 op 0 0) = sOperation op := by
  have hop : ¬ 5 ≤ op := by omega
  rw [decode_cmdWord (by decide) (by omega) (by decide)]
  simp [decodeFields, hop]

/-- Settles O1: the command word of each operation is built from its unit, its `OP` and its pair, and the decoder reads
exactly these fields back. -/
theorem decodeEncodeRoundTrip : Obligations.DecodeEncodeRoundTrip := by
  intro i hi
  cases i with
  | fxId a b => exact decode_cmdWord_fx (by decide) (of_decide_eq_true hi)
  | fxAdd a b => exact decode_cmdWord_fx (by decide) (of_decide_eq_true hi)
  | fxSub a b => exact decode_cmdWord_fx (by decide) (of_decide_eq_true hi)
  | fxMul a b => exact decode_cmdWord_fx (by decide) (of_decide_eq_true hi)
  | fxDiv a b => exact decode_cmdWord_fx (by decide) (of_decide_eq_true hi)
  | hId => exact decode_cmdWord_h (by decide)
  | hAdd => exact decode_cmdWord_h (by decide)
  | hSub => exact decode_cmdWord_h (by decide)
  | hMul => exact decode_cmdWord_h (by decide)
  | hDiv => exact decode_cmdWord_h (by decide)
  | sId => exact decode_cmdWord_s (by decide)
  | sAdd => exact decode_cmdWord_s (by decide)
  | sSub => exact decode_cmdWord_s (by decide)
  | sMul => exact decode_cmdWord_s (by decide)
  | sDiv => exact decode_cmdWord_s (by decide)

/-- Settles O2: `decode_ok` gives the word as the command word of its own fields, and those are the fields of the
operation; for H and S the pair is zero. -/
theorem decodedWordIsItsEncoding : Obligations.DecodedWordIsItsEncoding := by
  intro w i h
  obtain ⟨fmt, op, a, b, hfmt, hop, ha, hb, hpair, rfl, -, -, rfl⟩ := decode_ok h
  interval_cases fmt
  · interval_cases op <;> exact ⟨decide_eq_true ⟨ha, hb⟩, rfl⟩
  · obtain ⟨rfl, rfl⟩ := hpair (by decide)
    interval_cases op <;> exact ⟨rfl, rfl⟩
  · obtain ⟨rfl, rfl⟩ := hpair (by decide)
    interval_cases op <;> exact ⟨rfl, rfl⟩

theorem decode_eq_ok_iff {w : Word} {i : Instr} : decode w = .ok i ↔ i.WellFormed ∧ encode i = w :=
  ⟨decodedWordIsItsEncoding w i, fun ⟨hi, hw⟩ => hw ▸ decodeEncodeRoundTrip i hi⟩

/-! ### The opcode map -/

/-- Masking a number masks each of its fields by the field of the mask. -/
theorem slice_and (v mask hi lo : Nat) : slice (v &&& mask) hi lo = slice v hi lo &&& slice mask hi lo := by
  rw [slice, Nat.and_div_two_pow, Nat.and_mod_two_pow]
  rfl

/-- A field is unchanged by a mask that is all ones on it. -/
theorem slice_and_ones {v mask hi lo : Nat} (h : slice mask hi lo = 2 ^ (hi - lo + 1) - 1) :
    slice (v &&& mask) hi lo = slice v hi lo := by
  rw [slice_and, h, Nat.and_two_pow_sub_one_eq_mod, slice, Nat.mod_mod]

theorem slice_and_zeros {v mask hi lo : Nat} (h : slice mask hi lo = 0) : slice (v &&& mask) hi lo = 0 := by
  rw [slice_and, h, Nat.and_zero]

/-- The mask of the FX rows clears the pair and keeps every other field. -/
theorem cmdFields_and_fxMask (w : Word) :
    cmdFields (w &&& 0xFFC0C0FF#32) = { cmdFields w with a := 0, b := 0 } := by
  simp only [cmdFields, BitVec.toNat_and, CmdFields.mk.injEq]
  exact ⟨slice_and_ones rfl, slice_and_ones rfl, slice_and_ones rfl, slice_and_zeros rfl, slice_and_zeros rfl,
    slice_and_ones rfl, slice_and_ones rfl, slice_and_ones rfl⟩

/-- A command word is given by its fields. -/
theorem cmdFields_inj {v w : Word} : cmdFields v = cmdFields w ↔ v = w :=
  ⟨fun h => BitVec.eq_of_toNat_eq (by rw [cmdFields_word v, cmdFields_word w, h]), fun h => h ▸ rfl⟩

/-- A word agrees with an FX row under the row's mask when it is the row's command word with the word's own pair. -/
theorem and_fxMask_eq_iff (w : Word) {op : Nat} (ho : op < 8) :
    w &&& 0xFFC0C0FF#32 = cmdWord 0 op 0 0 ↔ cmdWord 0 op (cmdFields w).a (cmdFields w).b = w := by
  obtain ⟨-, -, ha, hb⟩ := cmdFields_lt w
  rw [← cmdFields_inj, cmdFields_and_fxMask, cmdWord_fields (by decide) ho (by decide) (by decide),
    ← cmdFields_inj, cmdWord_fields (by decide) ho ha hb]
  generalize cmdFields w = f
  obtain ⟨fmt, op', rm, a, b, r7, r14, r22⟩ := f
  simp only [CmdFields.mk.injEq, true_and, eq_comm (a := 0), eq_comm (a := op)]

/-- The row selects its operation: a word agrees with `match` under `mask` exactly when it decodes to the row's
operation (30_encoding.md R81). -/
def OpcodeRow.Selects (row : OpcodeRow) : Prop :=
  ∀ w : Word, w &&& row.mask = row.matchWord ↔
    decode w = .ok (row.operation (Machine.cmdField w 13 8) (Machine.cmdField w 21 16))

/-- A row with the FX mask selects an operation that is encoded by the row's `OP` and its pair. -/
theorem fxRow_selects {operation : Nat → Nat → Instr} {op : Nat} (ho : op < 8)
    (hwf : ∀ a b, FieldsFit a b → (operation a b).WellFormed)
    (henc : ∀ a b, encode (operation a b) = cmdWord 0 op a b) :
    OpcodeRow.Selects ⟨cmdWord 0 op 0 0, 0xFFC0C0FF#32, operation⟩ := by
  intro w
  obtain ⟨-, -, ha, hb⟩ := cmdFields_lt w
  have hA : Machine.cmdField w 13 8 = (cmdFields w).a := cmdField_eq w 13 8
  have hB : Machine.cmdField w 21 16 = (cmdFields w).b := cmdField_eq w 21 16
  rw [hA, hB, decode_eq_ok_iff, henc, ← and_fxMask_eq_iff w ho]
  exact (and_iff_right (hwf _ _ ⟨ha, hb⟩)).symm

/-- A row whose mask leaves no bit free selects the operation whose command word it is. -/
theorem fixedRow_selects {i : Instr} (hwf : i.WellFormed) :
    OpcodeRow.Selects ⟨encode i, 0xFFFFFFFF#32, fun _ _ => i⟩ := by
  intro w
  have hones : w &&& 0xFFFFFFFF#32 = w := BitVec.and_allOnes
  rw [hones, decode_eq_ok_iff, and_iff_right hwf, eq_comm]

/-- Settles O3: the five FX rows leave the pair free, the ten H and S rows are single command words. -/
theorem opcodeMapSelectsOperation : Obligations.OpcodeMapSelectsOperation := by
  change ∀ row ∈ opcodeMap, row.Selects
  simp only [opcodeMap, List.forall_mem_cons]
  exact ⟨fxRow_selects (op := 0) (by decide) (fun _ _ => decide_eq_true) fun _ _ => rfl,
    fxRow_selects (op := 1) (by decide) (fun _ _ => decide_eq_true) fun _ _ => rfl,
    fxRow_selects (op := 2) (by decide) (fun _ _ => decide_eq_true) fun _ _ => rfl,
    fxRow_selects (op := 3) (by decide) (fun _ _ => decide_eq_true) fun _ _ => rfl,
    fxRow_selects (op := 4) (by decide) (fun _ _ => decide_eq_true) fun _ _ => rfl,
    fixedRow_selects (i := .hId) rfl, fixedRow_selects (i := .hAdd) rfl, fixedRow_selects (i := .hSub) rfl,
    fixedRow_selects (i := .hMul) rfl, fixedRow_selects (i := .hDiv) rfl, fixedRow_selects (i := .sId) rfl,
    fixedRow_selects (i := .sAdd) rfl, fixedRow_selects (i := .sSub) rfl, fixedRow_selects (i := .sMul) rfl,
    fixedRow_selects (i := .sDiv) rfl, List.forall_mem_nil _⟩

/-- Settles O4: each word is the encoding of its operation, so the round trip decodes it. -/
theorem specWordsDecode : Obligations.SpecWordsDecode :=
  ⟨decodeEncodeRoundTrip (.fxAdd 4 4) rfl, decodeEncodeRoundTrip (.fxDiv 1 31) rfl,
    decodeEncodeRoundTrip (.fxMul 63 63) rfl, decodeEncodeRoundTrip .hSub rfl, decodeEncodeRoundTrip .sMul rfl⟩

end Sys2Proof
end

section
/-! What a step does with the request at the head: the refusals of the decoder by name, and the requests outside the
contract (30_encoding.md R72, R77, R78). -/

namespace Sys2Proof.Machine

section
variable {s : State} {req : Request} {rest : List Request} (hreq : s.requests = req :: rest)
include hreq

theorem step_of_decode_ok {i : Instr} (h : decode req.cmd = .ok i) : step s = exec i s := by
  rw [step_cons hreq, h]

theorem step_of_decode_error {e : Reject} (h : decode req.cmd = .error e) : step s = .refused (refusalOf e) := by
  rw [step_cons hreq, h]

/-- Everything an FX request does: FormatOverflow, then the refusal of an empty field, then its operation. -/
theorem fxRequest_cons {a b : Nat} (op : Nat → Nat → Except Failure Nat) :
    fxRequest a b op s =
      if 32 < a + b then .next (s.answered rest (.fail .formatOverflow))
      else if a = 0 ∨ b = 0 then .refused .abRange
      else .next (s.answered rest
        (match op (fxOperand (a + b) req.x) (fxOperand (a + b) req.y) with
          | .error e => .fail e
          | .ok r => fxResponse s.params.fxTie a b r)) := by
  split_ifs with hov h0
  · exact fxRequest_overflow hreq hov op
  · exact fxRequest_range hreq (by omega) h0 op
  · exact fxRequest_legal hreq (by omega) (by omega) (by omega) op

theorem floatUnary_half_wide (hx : 2 ^ 16 ≤ req.x.toNat) (op : Nat → Nat) :
    floatUnary half op s = .refused .wideOperand := by
  rw [floatUnary_cons hreq, wideFor_half, if_pos (decide_eq_true hx)]

theorem floatUnary_half_fits (hx : req.x.toNat < 2 ^ 16) (op : Nat → Nat) :
    floatUnary half op s = .next (s.answered rest (floatResponse half (op req.x.toNat))) := by
  rw [floatUnary_cons hreq, wideFor_half, if_neg (by simpa using hx)]

theorem floatBinary_half_wide (hxy : 2 ^ 16 ≤ req.x.toNat ∨ 2 ^ 16 ≤ req.y.toNat) (op : Nat → Nat → Nat) :
    floatBinary half op s = .refused .wideOperand := by
  rw [floatBinary_cons hreq, wideFor_half, wideFor_half, if_pos (by simpa using hxy)]

theorem floatBinary_half_fits (hx : req.x.toNat < 2 ^ 16) (hy : req.y.toNat < 2 ^ 16) (op : Nat → Nat → Nat) :
    floatBinary half op s = .next (s.answered rest (floatResponse half (op req.x.toNat req.y.toNat))) := by
  rw [floatBinary_cons hreq, wideFor_half, wideFor_half, if_neg (by simpa using ⟨hx, hy⟩)]

end

/-! ### The operations by unit -/

/-- The H operations that read both operands. -/
def hBinaryOperations : List Instr := [.hAdd, .hSub, .hMul, .hDiv]

/-- The S operations. -/
def sOperations : List Instr := [.sId, .sAdd, .sSub, .sMul, .sDiv]

theorem exec_of_mem_fxOperations {a b : Nat} {i : Instr} (hi : i ∈ fxOperations a b) (s : State) :
    ∃ op, exec i s = fxRequest a b op s := by
  simp only [fxOperations, List.mem_cons, List.not_mem_nil, or_false] at hi
  obtain rfl | rfl | rfl | rfl | rfl := hi
  · exact ⟨_, exec_fxId a b s⟩
  · exact ⟨_, exec_fxAdd a b s⟩
  · exact ⟨_, exec_fxSub a b s⟩
  · exact ⟨_, exec_fxMul a b s⟩
  · exact ⟨_, exec_fxDiv a b s⟩

theorem exec_of_mem_hBinaryOperations {i : Instr} (hi : i ∈ hBinaryOperations) (s : State) :
    ∃ op, exec i s = floatBinary half op s := by
  simp only [hBinaryOperations, List.mem_cons, List.not_mem_nil, or_false] at hi
  obtain rfl | rfl | rfl | rfl := hi
  · exact ⟨_, exec_hAdd s⟩
  · exact ⟨_, exec_hSub s⟩
  · exact ⟨_, exec_hMul s⟩
  · exact ⟨_, exec_hDiv s⟩

/-- Every port word fits the unit S, so an S operation answers whatever the operands are. -/
theorem exec_of_mem_sOperations {i : Instr} (hi : i ∈ sOperations) {s : State} {req : Request} {rest : List Request}
    (hreq : s.requests = req :: rest) : ∃ t, exec i s = .next t := by
  have unary (op : Nat → Nat) : ∃ t, floatUnary single op s = .next t :=
    ⟨_, by rw [floatUnary_cons hreq, wideFor_single]; rfl⟩
  have binary (op : Nat → Nat → Nat) : ∃ t, floatBinary single op s = .next t :=
    ⟨_, by rw [floatBinary_cons hreq, wideFor_single, wideFor_single]; rfl⟩
  simp only [sOperations, List.mem_cons, List.not_mem_nil, or_false] at hi
  obtain rfl | rfl | rfl | rfl | rfl := hi
  · exact exec_sId s ▸ unary _
  · exact exec_sAdd s ▸ binary _
  · exact exec_sSub s ▸ binary _
  · exact exec_sMul s ▸ binary _
  · exact exec_sDiv s ▸ binary _

/-! ### The refusals of the decoder -/

/-- The command word is refused whatever the operands are (30_encoding.md R72 step 1): the clauses of R77 that speak of
`CMD` alone. -/
def MalformedCommand (w : Word) : Prop :=
  ReservedBitsSet w ∨ cmdField w 1 0 = 3 ∨ 5 ≤ cmdField w 4 2 ∨ cmdField w 6 5 ≠ 0 ∨
    (cmdField w 1 0 ≠ 0 ∧ (cmdField w 13 8 ≠ 0 ∨ cmdField w 21 16 ≠ 0))

/-- The fields that the decoder reads, in the terms of the claims. -/
theorem cmdFields_eq (w : Word) :
    cmdFields w =
      { fmt := cmdField w 1 0, op := cmdField w 4 2, rm := cmdField w 6 5, a := cmdField w 13 8, b := cmdField w 21 16,
        rsvd7 := cmdField w 7 7, rsvd14 := cmdField w 15 14, rsvd22 := cmdField w 31 22 } := by
  simp only [cmdField_eq, cmdFields]

section
variable {w : Word}

theorem decode_of_reservedBits (hbits : ReservedBitsSet w) : decode w = .error .reservedBits := by
  unfold ReservedBitsSet at hbits
  rw [decode, cmdFields_eq, decodeFields, if_pos hbits]

/-- The decoder's tests once no reserved bit is set. -/
theorem decode_of_not_reservedBits (hbits : ¬ ReservedBitsSet w) :
    decode w =
      if cmdField w 1 0 = 3 then .error .reservedFmt
      else if 5 ≤ cmdField w 4 2 then .error .reservedOp
      else if cmdField w 6 5 ≠ 0 then .error .roundMode
      else if cmdField w 1 0 ≠ 0 ∧ (cmdField w 13 8 ≠ 0 ∨ cmdField w 21 16 ≠ 0) then .error .reservedBits
      else if cmdField w 1 0 = 0 then fxOperation (cmdField w 4 2) (cmdField w 13 8) (cmdField w 21 16)
      else if cmdField w 1 0 = 1 then hOperation (cmdField w 4 2)
      else sOperation (cmdField w 4 2) := by
  unfold ReservedBitsSet at hbits
  rw [decode, cmdFields_eq, decodeFields, if_neg hbits]

variable (hbits : ¬ ReservedBitsSet w)
include hbits

theorem decode_of_reservedFmt (hfmt : cmdField w 1 0 = 3) : decode w = .error .reservedFmt := by
  rw [decode_of_not_reservedBits hbits, if_pos hfmt]

variable (hfmt : cmdField w 1 0 ≠ 3)
include hfmt

theorem decode_of_reservedOp (hop : 5 ≤ cmdField w 4 2) : decode w = .error .reservedOp := by
  rw [decode_of_not_reservedBits hbits, if_neg hfmt, if_pos hop]

variable (hop : cmdField w 4 2 < 5)
include hop

theorem decode_of_roundMode (hrm : cmdField w 6 5 ≠ 0) : decode w = .error .roundMode := by
  rw [decode_of_not_reservedBits hbits, if_neg hfmt, if_neg hop.not_ge, if_pos hrm]

variable (hrm : cmdField w 6 5 = 0)
include hrm

theorem decode_of_pair_set (hunit : cmdField w 1 0 ≠ 0) (hpair : cmdField w 13 8 ≠ 0 ∨ cmdField w 21 16 ≠ 0) :
    decode w = .error .reservedBits := by
  rw [decode_of_not_reservedBits hbits, if_neg hfmt, if_neg hop.not_ge, if_neg (not_not.mpr hrm),
    if_pos ⟨hunit, hpair⟩]

/-- A command word that passes every test names an operation of its unit. -/
theorem decode_of_tests_passed (hpair : ¬ (cmdField w 1 0 ≠ 0 ∧ (cmdField w 13 8 ≠ 0 ∨ cmdField w 21 16 ≠ 0))) :
    decode w =
      if cmdField w 1 0 = 0 then fxOperation (cmdField w 4 2) (cmdField w 13 8) (cmdField w 21 16)
      else if cmdField w 1 0 = 1 then hOperation (cmdField w 4 2)
      else sOperation (cmdField w 4 2) := by
  rw [decode_of_not_reservedBits hbits, if_neg hfmt, if_neg hop.not_ge, if_neg (not_not.mpr hrm), if_neg hpair]

end

/-- Settles O6: the decoder's tests stand in the order of the rule, and the step refuses by the name of the first one
that fails. -/
theorem decodeRefusalsInOrder : Obligations.DecodeRefusalsInOrder :=
  fun _ _ _ hreq =>
    ⟨fun hbits => step_of_decode_error hreq (decode_of_reservedBits hbits),
      fun hbits hfmt => step_of_decode_error hreq (decode_of_reservedFmt hbits hfmt),
      fun hbits hfmt hop => step_of_decode_error hreq (decode_of_reservedOp hbits hfmt hop),
      fun hbits hfmt hop hrm => step_of_decode_error hreq (decode_of_roundMode hbits hfmt hop hrm),
      fun hbits hfmt hop hrm hunit hpair =>
        step_of_decode_error hreq (decode_of_pair_set hbits hfmt hop hrm hunit hpair)⟩

/-! ### The requests outside the contract -/

/-- The unit of a command word that decodes to `i`, and where `i` stands in it (30_encoding.md R63, R64). -/
inductive DecodedUnit (w : Word) (i : Instr) : Prop
  | fx (hfmt : cmdField w 1 0 = 0) (hi : i ∈ fxOperations (cmdField w 13 8) (cmdField w 21 16))
  | hId (hfmt : cmdField w 1 0 = 1) (hop : cmdField w 4 2 = 0) (hi : i = .hId)
  | hBinary (hfmt : cmdField w 1 0 = 1) (hop : cmdField w 4 2 ≠ 0) (hi : i ∈ hBinaryOperations)
  | s (hfmt : cmdField w 1 0 = 2) (hi : i ∈ sOperations)

theorem fxOperation_ok {op : Nat} (h : op < 5) (a b : Nat) : ∃ i ∈ fxOperations a b, fxOperation op a b = .ok i := by
  interval_cases op <;> exact ⟨_, by simp [fxOperations], rfl⟩

theorem hOperation_ok {op : Nat} (h : op < 5) (h0 : op ≠ 0) : ∃ i ∈ hBinaryOperations, hOperation op = .ok i := by
  have hpos : 1 ≤ op := by omega
  interval_cases op <;> exact ⟨_, by decide, rfl⟩

theorem sOperation_ok {op : Nat} (h : op < 5) : ∃ i ∈ sOperations, sOperation op = .ok i := by
  interval_cases op <;> exact ⟨_, by decide, rfl⟩

theorem decode_of_malformed {w : Word} (h : MalformedCommand w) : ∃ e, decode w = .error e := by
  by_cases hbits : ReservedBitsSet w
  · exact ⟨_, decode_of_reservedBits hbits⟩
  by_cases hfmt : cmdField w 1 0 = 3
  · exact ⟨_, decode_of_reservedFmt hbits hfmt⟩
  by_cases hop : 5 ≤ cmdField w 4 2
  · exact ⟨_, decode_of_reservedOp hbits hfmt hop⟩
  by_cases hrm : cmdField w 6 5 ≠ 0
  · exact ⟨_, decode_of_roundMode hbits hfmt (not_le.mp hop) hrm⟩
  obtain ⟨hunit, hpair⟩ := (((h.resolve_left hbits).resolve_left hfmt).resolve_left hop).resolve_left hrm
  exact ⟨_, decode_of_pair_set hbits hfmt (not_le.mp hop) (not_not.mp hrm) hunit hpair⟩

theorem decode_of_not_malformed {w : Word} (h : ¬ MalformedCommand w) : ∃ i, decode w = .ok i ∧ DecodedUnit w i := by
  rw [MalformedCommand, not_or, not_or, not_or, not_or] at h
  obtain ⟨hbits, hfmt, hop, hrm, hpair⟩ := h
  have hlt : cmdField w 4 2 < 5 := not_le.mp hop
  have hrange : cmdField w 1 0 < 4 := cmdField_eq w 1 0 ▸ (cmdFields_lt w).1
  rw [decode_of_tests_passed hbits hfmt hlt (not_not.mp hrm) hpair]
  by_cases h0 : cmdField w 1 0 = 0
  · obtain ⟨i, hi, hok⟩ := fxOperation_ok hlt (cmdField w 13 8) (cmdField w 21 16)
    exact ⟨i, by rw [if_pos h0, hok], .fx h0 hi⟩
  by_cases h1 : cmdField w 1 0 = 1
  · by_cases hid : cmdField w 4 2 = 0
    · exact ⟨.hId, by rw [if_neg h0, if_pos h1, hid]; rfl, .hId h1 hid rfl⟩
    · obtain ⟨i, hi, hok⟩ := hOperation_ok hlt hid
      exact ⟨i, by rw [if_neg h0, if_pos h1, hok], .hBinary h1 hid hi⟩
  · obtain ⟨i, hi, hok⟩ := sOperation_ok hlt
    exact ⟨i, by rw [if_neg h0, if_neg h1, hok], .s (by omega) hi⟩

/-- What the clauses of R77 add for a request whose command word decodes: an empty field of the pair, or a wide operand
that is read. -/
def RefusedOperands (r : Request) : Prop :=
  (cmdField r.cmd 1 0 = 0 ∧ cmdField r.cmd 13 8 + cmdField r.cmd 21 16 ≤ 32 ∧
    (cmdField r.cmd 13 8 = 0 ∨ cmdField r.cmd 21 16 = 0)) ∨
  (cmdField r.cmd 1 0 = 1 ∧ (0xFFFF < r.x.toNat ∨ (cmdField r.cmd 4 2 ≠ 0 ∧ 0xFFFF < r.y.toNat)))

theorem outsideContract_iff (r : Request) : r.OutsideContract ↔ MalformedCommand r.cmd ∨ RefusedOperands r := by
  simp only [Request.OutsideContract, MalformedCommand, RefusedOperands, or_assoc]

/-- Settles O5: a malformed command word is refused by the decoder; for any other, the remaining clauses of R77 are what
the shared shape of its unit's requests refuses. -/
theorem refusedExactlyOutsideContract : Obligations.RefusedExactlyOutsideContract := by
  intro s req rest hreq
  rw [outsideContract_iff]
  by_cases hmal : MalformedCommand req.cmd
  · obtain ⟨e, he⟩ := decode_of_malformed hmal
    exact ⟨fun _ => ⟨_, step_of_decode_error hreq he⟩, fun hin => absurd (.inl hmal) hin,
      fun hin => absurd (.inl hmal) hin⟩
  obtain ⟨i, hok, hunit⟩ := decode_of_not_malformed hmal
  rw [or_iff_right hmal, SafeStep, step_of_decode_ok hreq hok, RefusedOperands]
  cases hunit with
  | fx hfmt hi =>
    obtain ⟨op, hexec⟩ := exec_of_mem_fxOperations hi s
    rw [hexec, fxRequest_cons hreq]
    simp only [hfmt, true_and, false_and, or_false, zero_ne_one]
    refine ⟨fun ⟨hle, h0⟩ => ⟨_, by rw [if_neg hle.not_gt, if_pos h0]⟩, fun hin => ?_, fun _ _ hov => if_pos hov⟩
    by_cases hov : 32 < cmdField req.cmd 13 8 + cmdField req.cmd 21 16
    · exact ⟨_, if_pos hov⟩
    · exact ⟨_, by rw [if_neg hov, if_neg fun h0 => hin ⟨Nat.le_of_not_lt hov, h0⟩]⟩
  | hId hfmt hop hi =>
    rw [hi, exec_hId]
    simp only [hfmt, hop, true_and, false_and, false_or, or_false, one_ne_zero, ne_eq, not_true_eq_false]
    exact ⟨fun hx => ⟨_, floatUnary_half_wide hreq hx _⟩, fun hx => ⟨_, floatUnary_half_fits hreq (by omega) _⟩,
      fun _ h0 => h0.elim⟩
  | hBinary hfmt hop hi =>
    obtain ⟨op, hexec⟩ := exec_of_mem_hBinaryOperations hi s
    rw [hexec]
    simp only [hfmt, hop, true_and, false_and, false_or, one_ne_zero, ne_eq, not_false_eq_true]
    exact ⟨fun hxy => ⟨_, floatBinary_half_wide hreq hxy _⟩,
      fun hxy => ⟨_, floatBinary_half_fits hreq (by omega) (by omega) _⟩, fun _ h0 => h0.elim⟩
  | s hfmt hi =>
    simp only [hfmt]
    exact ⟨fun h => by omega, fun _ => exec_of_mem_sOperations hi hreq, fun _ h0 => by omega⟩

/-- Settles O7: `step_cons` at the two outcomes of the decoder. -/
theorem stepRunsDecodedInstruction : Obligations.StepRunsDecodedInstruction :=
  fun _ _ _ hreq => ⟨fun _ => step_of_decode_ok hreq, fun _ => step_of_decode_error hreq⟩

/-- Settles O20: every FX operation is an FX request, and that shape makes the refusal before it reads an operand. -/
theorem fxRangeRefused : Obligations.FxRangeRefused := by
  intro a b s req rest hreq hab h0 i hi
  obtain ⟨op, hexec⟩ := exec_of_mem_fxOperations hi s
  rw [hexec, fxRequest_range hreq hab h0]

/-- Settles O55: `H.ID` reads `X` alone, the other H operations read both operands. -/
theorem wideHalfOperandRefused : Obligations.WideHalfOperandRefused := by
  intro s req rest hreq
  have hbinary {i : Instr} (hi : i ∈ hBinaryOperations) (hxy : 2 ^ 16 ≤ req.x.toNat ∨ 2 ^ 16 ≤ req.y.toNat) :
      exec i s = .refused .wideOperand := by
    obtain ⟨op, hexec⟩ := exec_of_mem_hBinaryOperations hi s
    rw [hexec, floatBinary_half_wide hreq hxy]
  refine ⟨fun hx => List.forall_mem_cons.mpr ⟨?_, fun i hi => hbinary hi (.inl hx)⟩, fun hy i hi => hbinary hi (.inr hy),
    fun hx => ⟨_, exec_hId s ▸ floatUnary_half_fits hreq hx _⟩⟩
  rw [exec_hId, floatUnary_half_wide hreq hx]

/-- Settles O56: an FX request hands `Y` to its operation, which drops it for `FX.ID`; the floating shape of one operand
does not take it. -/
theorem identityIgnoresY : Obligations.IdentityIgnoresY := by
  intro s req rest y a b hreq
  refine List.forall_mem_cons.mpr ⟨?_, List.forall_mem_cons.mpr ⟨?_, List.forall_mem_singleton.mpr ?_⟩⟩
  · rw [exec_fxId, exec_fxId, fxRequest_cons hreq, fxRequest_cons rfl]
    rfl
  · rw [exec_hId, exec_hId, floatUnary_cons hreq, floatUnary_cons rfl]
    rfl
  · rw [exec_sId, exec_sId, floatUnary_cons hreq, floatUnary_cons rfl]
    rfl

/-- Settles O59: by the cases of a response and of a failure; a length of at most 16 fits the five bits of `TLEN`. -/
theorem responseCodes : Obligations.ResponseCodes := by
  refine ⟨fun r c t => ⟨rfl, rfl, rfl, rfl, fun ht => ?_⟩, ⟨rfl, rfl⟩, fun r => ?_, fun f => ⟨rfl, rfl, rfl, rfl⟩,
    rfl, rfl, rfl, rfl, rfl⟩
  · simp only [Response.tlen, Option.map_some, BitVec.toNat_ofNat, Option.some.injEq]
    exact Nat.mod_eq_of_lt (by omega)
  · cases r with
    | ok r c t => exact (by decide : 0#2 ≠ 3#2)
    | fail f => cases f <;> decide

end Sys2Proof.Machine
end

section
/-! The fields of an OK response (30_encoding.md R74, R75): every operation of the floating engine gives a pattern of its
format, so `RESULT` holds the result unchanged and `RCLASS` is its class. -/

namespace Sys2Proof

/-! ### The results of the engine are patterns of the format -/

/-- Shifting the highest set bit of `M` to below bit `n` leaves a number below `2^n`. -/
theorem shiftBy_lt_two_pow {M n : Nat} {k : Int} (hM : M ≠ 0) (h : (msb M : Int) + k < n) : shiftBy M k < 2 ^ n := by
  obtain ⟨-, hlt⟩ := msb_spec hM
  unfold shiftBy
  split_ifs with hk
  · calc M * 2 ^ k.toNat < 2 ^ (msb M + 1) * 2 ^ k.toNat := Nat.mul_lt_mul_of_pos_right hlt (by positivity)
      _ = 2 ^ (msb M + 1 + k.toNat) := (pow_add ..).symm
      _ ≤ 2 ^ n := Nat.pow_le_pow_right (by decide) (by omega)
  · rw [Nat.div_lt_iff_lt_mul (by positivity), ← pow_add]
    exact hlt.trans_le (Nat.pow_le_pow_right (by decide) (by omega))

theorem pattern_of_lt {f : BF} {g : Nat} (hg : g < 2 ^ (f.width - 1)) : f.Pattern g := (abs_lt_two hg).2.2

theorem withSign_pattern {f : BF} {g : Nat} (hg : g < 2 ^ (f.width - 1)) (s : Bool) : f.Pattern (f.withSign s g) := by
  have hw := width_pos f
  unfold BF.Pattern BF.withSign
  split_ifs <;> omega

section
variable {f : BF} (hf : f.IsUnit)
include hf

/-- A normal result has an exponent field below `EXPMAX`, a denormal one has the exponent field 0, and the overflow goes
to `INF` itself. -/
theorem construct_le_inf (exp : Int) (M : Nat) : f.construct exp M ≤ f.inf := by
  obtain ⟨hmax, hbias⟩ := bias_facts hf
  have hemax : f.emax = f.bias := rfl
  have hemin : f.emin = 1 - f.bias := rfl
  unfold BF.construct
  split_ifs with hM
  · exact Nat.zero_le _
  extract_lets shift en
  split_ifs with hover hnormal
  · exact le_rfl
  · have hmant : shiftBy M shift < 2 ^ (f.m + 1) := shiftBy_lt_two_pow hM (by omega)
    have hexp : (en + f.bias).toNat + 1 ≤ f.expMax := by omega
    calc (en + f.bias).toNat * 2 ^ f.m + (shiftBy M shift - 2 ^ f.m)
        ≤ ((en + f.bias).toNat + 1) * 2 ^ f.m := by rw [pow_succ] at hmant; rw [add_mul]; omega
      _ ≤ f.inf := Nat.mul_le_mul_right _ hexp
  · have hmant : shiftBy M (exp - f.emin) < 2 ^ f.m := shiftBy_lt_two_pow hM (by omega)
    exact hmant.le.trans (Nat.le_mul_of_pos_left _ (by omega))

theorem construct_lt (exp : Int) (M : Nat) : f.construct exp M < 2 ^ (f.width - 1) :=
  (construct_le_inf hf exp M).trans_lt (inf_lt hf)

theorem addmag_pattern (a b : Nat) : f.Pattern (f.addmag a b) := by
  unfold BF.addmag
  dsimp only
  split_ifs <;> exact pattern_of_lt (construct_lt hf _ _)

theorem submag_pattern (a b : Nat) : f.Pattern (f.submag a b) := by
  have hordered (a b : Nat) : f.Pattern (f.submagOrdered a b) := pattern_of_lt (construct_lt hf _ _)
  unfold BF.submag
  split_ifs
  · exact negate_pattern (hordered b a)
  · exact hordered a b

/-! Each table entry of the four operations is the canonical NaN, an operand, a zero, `INF` or a finite result. -/

section
variable {q x y : Nat} (hq : f.Pattern q)
include hq

theorem add_pattern (hx : f.Pattern x) (hy : f.Pattern y) : f.Pattern (f.add q x y) := by
  unfold BF.add
  split_ifs
  · exact hq
  · exact hx
  · exact hq
  · exact hx
  · exact hy
  · split
    · exact addmag_pattern hf _ _
    · exact negate_pattern (addmag_pattern hf _ _)
    · exact submag_pattern hf _ _
    · exact negate_pattern (submag_pattern hf _ _)

theorem sub_pattern (hx : f.Pattern x) (hy : f.Pattern y) : f.Pattern (f.sub q x y) := by
  unfold BF.sub
  split_ifs
  · exact hq
  · exact hq
  · exact hx
  · exact hx
  · exact negate_pattern hy
  · split
    · exact submag_pattern hf _ _
    · exact negate_pattern (submag_pattern hf _ _)
    · exact addmag_pattern hf _ _
    · exact negate_pattern (addmag_pattern hf _ _)

theorem mul_pattern (x y : Nat) : f.Pattern (f.mul q x y) := by
  have hzero : 0 < 2 ^ (f.width - 1) := by positivity
  unfold BF.mul
  extract_lets s
  split_ifs
  · exact hq
  · exact hq
  · exact withSign_pattern hzero s
  · exact withSign_pattern (inf_lt hf) s
  · exact withSign_pattern (construct_lt hf _ _) s

theorem divInfInf_pattern (dii : DivInfInf) (s : Bool) : f.Pattern (f.divInfInf dii q s) := by
  cases dii with
  | nan => exact hq
  | inf => exact withSign_pattern (inf_lt hf) s
  | zero => exact withSign_pattern (by positivity) s

theorem div_pattern (dii : DivInfInf) (x y : Nat) : f.Pattern (f.div dii q x y) := by
  have hzero : 0 < 2 ^ (f.width - 1) := by positivity
  unfold BF.div
  extract_lets s
  split_ifs
  · exact hq
  · exact hq
  · exact divInfInf_pattern hf hq dii s
  · exact withSign_pattern hzero s
  · exact withSign_pattern (inf_lt hf) s
  · exact withSign_pattern (inf_lt hf) s
  · exact withSign_pattern hzero s
  · exact withSign_pattern (construct_lt hf _ _) s

end
end

/-! ### The fields -/

namespace Machine

/-- From `s` to `t` one OK response with `RESULT = r` and `RCLASS = c` is appended. -/
def GivesOk (s t : State) (r : Word) (c : BitVec 3) : Prop := ∃ x, t.responses = s.responses ++ [.ok r c x]

theorem GivesOk.of_answered {s : State} {rest : List Request} {q : Response} {r : Word} {c : BitVec 3}
    (h : GivesOk s (s.answered rest q) r c) : ∃ x, q = .ok r c x := by
  obtain ⟨x, hx⟩ := h
  exact ⟨x, by simpa using hx⟩

theorem fxRequest_fields {a b : Nat} {op : Nat → Nat → Except Failure Nat} {s t : State} {r : Word} {c : BitVec 3}
    (hok : GivesOk s t r c)
    (hop : ∀ x y v, x < 2 ^ (a + b) → op x y = .ok v → v < 2 ^ (a + b)) (h : fxRequest a b op s = .next t) :
    r.toNat < 2 ^ (a + b) ∧ c = 0#3 := by
  obtain ⟨req, rest, -, ⟨-, rfl⟩ | ⟨-, -, -, rfl⟩⟩ := fxRequest_next h
  · obtain ⟨x, hx⟩ := hok.of_answered
    cases hx
  · obtain ⟨x, hx⟩ := hok.of_answered
    split at hx
    next => cases hx
    next v hv =>
      cases hx
      exact ⟨(BitVec.toNat_ofNat .. ▸ Nat.mod_le _ _).trans_lt (hop _ _ v (fxNormalize_lt _ _) hv), rfl⟩

/-- A pattern of a unit fits `RESULT`, so the response shows the result itself. -/
theorem floatResponse_fields {f : BF} (hf : f.IsUnit) {v : Nat} (hv : f.Pattern v) {r : Word} {c : BitVec 3}
    {x : List Byte} (h : floatResponse f v = .ok r c x) :
    r.toNat < 2 ^ f.width ∧ c = classCode (f.classify r.toNat) := by
  have hwidth : 2 ^ f.width ≤ 2 ^ 32 := by obtain rfl | rfl := hf <;> decide
  have hres : (BitVec.ofNat 32 v).toNat = v := Nat.mod_eq_of_lt (lt_of_lt_of_le hv hwidth)
  cases h
  rw [hres]
  exact ⟨hv, rfl⟩

theorem pattern_of_not_wide {f : BF} {w : Word} (h : wideFor f w = false) : f.Pattern w.toNat :=
  Nat.lt_of_not_le (of_decide_eq_false h)

section
variable {f : BF} (hf : f.IsUnit) {s t : State} {r : Word} {c : BitVec 3} (hok : GivesOk s t r c)
include hf hok

theorem floatUnary_fields (h : floatUnary f (fun x => x) s = .next t) :
    r.toNat < 2 ^ f.width ∧ c = classCode (f.classify r.toNat) := by
  obtain ⟨req, rest, -, hx, rfl⟩ := floatUnary_next h
  obtain ⟨x, hresp⟩ := hok.of_answered
  exact floatResponse_fields hf (pattern_of_not_wide hx) hresp

theorem floatBinary_fields {op : Nat → Nat → Nat} (hop : ∀ x y, f.Pattern x → f.Pattern y → f.Pattern (op x y))
    (h : floatBinary f op s = .next t) : r.toNat < 2 ^ f.width ∧ c = classCode (f.classify r.toNat) := by
  obtain ⟨req, rest, -, hx, hy, rfl⟩ := floatBinary_next h
  obtain ⟨x, hresp⟩ := hok.of_answered
  exact floatResponse_fields hf (hop _ _ (pattern_of_not_wide hx) (pattern_of_not_wide hy)) hresp

end

/-- Settles O57: the FX results are patterns of `Q(a,b)`, the H and S results patterns of their format; the canonical NaNs
have that width by their type. -/
theorem responseFieldsMatch : Obligations.ResponseFieldsMatch := by
  intro i s t r c x hexec hresp
  have hok : GivesOk s t r c := ⟨x, hresp⟩
  have hhalf : half.IsUnit := .inl rfl
  have hsingle : single.IsUnit := .inr rfl
  have hqh : half.Pattern s.params.qnanH.toNat := s.params.qnanH.isLt
  have hqs : single.Pattern s.params.qnanS.toNat := s.params.qnanS.isLt
  cases i with
  | fxId a b => exact fxRequest_fields hok (fun x y v hx hv => by cases hv; exact hx) (exec_fxId a b s ▸ hexec)
  | fxAdd a b =>
    exact fxRequest_fields hok (fun x y v _ hv => by cases hv; exact fxNormalize_lt _ _) (exec_fxAdd a b s ▸ hexec)
  | fxSub a b =>
    exact fxRequest_fields hok (fun x y v _ hv => by cases hv; exact fxNormalize_lt _ _) (exec_fxSub a b s ▸ hexec)
  | fxMul a b =>
    exact fxRequest_fields hok (fun x y v _ hv => by cases hv; exact fxMul_lt a b x y) (exec_fxMul a b s ▸ hexec)
  | fxDiv a b =>
    refine fxRequest_fields hok (fun x y v _ hv => ?_) (exec_fxDiv a b s ▸ hexec)
    split at hv
    · cases hv
    · cases hv; exact fxDiv_lt a b x y
  | hId => exact floatUnary_fields hhalf hok (exec_hId s ▸ hexec)
  | hAdd => exact floatBinary_fields hhalf hok (fun _ _ => add_pattern hhalf hqh) (exec_hAdd s ▸ hexec)
  | hSub => exact floatBinary_fields hhalf hok (fun _ _ => sub_pattern hhalf hqh) (exec_hSub s ▸ hexec)
  | hMul => exact floatBinary_fields hhalf hok (fun x y _ _ => mul_pattern hhalf hqh x y) (exec_hMul s ▸ hexec)
  | hDiv => exact floatBinary_fields hhalf hok (fun x y _ _ => div_pattern hhalf hqh _ x y) (exec_hDiv s ▸ hexec)
  | sId => exact (floatUnary_fields hsingle hok (exec_sId s ▸ hexec)).2
  | sAdd => exact (floatBinary_fields hsingle hok (fun _ _ => add_pattern hsingle hqs) (exec_sAdd s ▸ hexec)).2
  | sSub => exact (floatBinary_fields hsingle hok (fun _ _ => sub_pattern hsingle hqs) (exec_sSub s ▸ hexec)).2
  | sMul => exact (floatBinary_fields hsingle hok (fun x y _ _ => mul_pattern hsingle hqs x y) (exec_sMul s ▸ hexec)).2
  | sDiv => exact (floatBinary_fields hsingle hok (fun x y _ _ => div_pattern hsingle hqs _ x y) (exec_sDiv s ▸ hexec)).2

end Machine
end Sys2Proof
end

section
/-! The line of a request reads back as the request (30_encoding.md R80): the line is its mnemonic, a space and its parts,
and each part is a numeral without a space or a comma. -/

namespace Sys2Proof.Machine

/-! ### Numerals -/

theorem numeralFrom_digit {base d : Nat} (hd : d < 16) (hb : d < base) (acc : Nat) :
    numeralFrom base acc [digitByte d] = some (acc * base + d) := by
  simp [numeralFrom, digitNamed_digit hd, hb]

theorem numeralFrom_dec (k : Nat) : numeralFrom 10 0 (dec k) = some k := by
  induction k using decimal_digit_induction with
  | digit k h => simpa [dec_of_lt_ten h] using numeralFrom_digit (by omega) h 0
  | more k h ih =>
    rw [dec_of_ten_le h, numeralFrom_append 10 _ _ 0 _ ih, numeralFrom_digit (by omega) (by omega)]
    congr 1
    omega

theorem numeralFrom_hexDigitsOf {D k : Nat} (h : k < 16 ^ D) : numeralFrom 16 0 (hexDigitsOf D k) = some k := by
  induction D generalizing k with
  | zero =>
    obtain rfl : k = 0 := by simpa using h
    rfl
  | succ D ih =>
    rw [pow_succ] at h
    rw [hexDigitsOf, numeralFrom_append 16 _ _ 0 _ (ih (by omega)), numeralFrom_digit (by omega) (by omega)]
    congr 1
    omega

theorem lineField_dec {k : Nat} (h : k < 64) : lineField (dec k) = some k := by
  simp [lineField, numeral, dec_ne_nil, numeralFrom_dec, h]

/-- A port word as the writer of a line prints it (30_encoding.md R80). -/
def portText (w : Word) : List Byte := ascii ['0', 'x'] ++ hexDigitsOf 8 w.toNat

theorem linePort_portText (w : Word) : linePort (portText w) = some w := by
  have hw : w.toNat < 16 ^ 8 := w.isLt
  have hdigits : numeral 16 (hexDigitsOf 8 w.toNat) = some w.toNat := by
    rw [numeral, if_neg (List.ne_nil_of_length_pos (by rw [hexDigitsOf_length]; decide)), numeralFrom_hexDigitsOf hw]
  have htake : (portText w).take 2 = ascii ['0', 'x'] := rfl
  have hdrop : (portText w).drop 2 = hexDigitsOf 8 w.toNat := rfl
  rw [linePort, if_pos htake, hdrop, hdigits]
  simp [w.isLt]

/-! ### The parts of a line -/

/-- The text can stand as a part of a line: it holds no comma and no space. -/
def PartText (t : List Byte) : Prop := ∀ c ∈ t, c ≠ asciiCode ',' ∧ c ≠ asciiCode ' '

theorem partText_of_code {t : List Byte} (h : ∀ c ∈ t, 0x30 ≤ c.toNat) : PartText t := by
  intro c hc
  have := h c hc
  constructor <;> rintro rfl <;> exact absurd this (by decide)

theorem partText_dec (k : Nat) : PartText (dec k) :=
  partText_of_code fun c hc => (dec_chars k c hc).1

theorem partText_portText (w : Word) : PartText (portText w) := by
  refine partText_of_code fun c hc => ?_
  obtain hc | hc := List.mem_append.mp hc
  · exact (by decide : ∀ c ∈ ascii ['0', 'x'], 0x30 ≤ c.toNat) c hc
  · have := hexDigitsOf_chars 8 w.toNat c hc
    omega

theorem dropSpaces_space {t : List Byte} (h : PartText t) : dropSpaces (asciiCode ' ' :: t) = t := by
  cases t with
  | nil => rfl
  | cons c t => simp [dropSpaces, (h c List.mem_cons_self).2]

/-- The parts written between commas, each after a space, are the parts read. -/
theorem split_intercalate {parts : List (List Byte)} (hne : parts ≠ []) (h : ∀ t ∈ parts, PartText t) :
    (splitAtByte (asciiCode ',') (asciiCode ' ' :: (ascii [',', ' ']).intercalate parts)).map dropSpaces = parts := by
  induction parts with
  | nil => exact absurd rfl hne
  | cons t parts ih =>
    have ht : PartText t := h t List.mem_cons_self
    have hnosep : ∀ c ∈ asciiCode ' ' :: t, c ≠ asciiCode ',' :=
      List.forall_mem_cons.mpr ⟨by decide, fun c hc => (ht c hc).1⟩
    cases parts with
    | nil =>
      have hlast : (ascii [',', ' ']).intercalate [t] = t := by simp [List.intercalate]
      rw [hlast, (split_nosep _ [] hnosep).2, List.map_singleton, dropSpaces_space ht]
    | cons u parts =>
      have hmore : asciiCode ' ' :: (ascii [',', ' ']).intercalate (t :: u :: parts) =
          (asciiCode ' ' :: t) ++ asciiCode ',' :: (asciiCode ' ' :: (ascii [',', ' ']).intercalate (u :: parts)) := by
        simp [List.intercalate, ascii]
      rw [hmore, (split_nosep _ _ hnosep).1, List.map_cons, dropSpaces_space ht,
        ih (List.cons_ne_nil _ _) fun v hv => h v (List.mem_cons_of_mem _ hv)]

/-! ### The request of a line -/

/-- The mnemonic of `i` names the unit of `FMT = fmt` and the operator of `OP = op`, around its point (30_encoding.md
R80). -/
structure Names (i : Instr) (fmt op : Nat) : Prop where
  unit : unitNamed ((ascii (mnemonic i)).takeWhile (fun c => c != asciiCode '.')) = some fmt
  operator : operatorNamed (((ascii (mnemonic i)).dropWhile (fun c => c != asciiCode '.')).drop 1) = some op

theorem mnemonic_nospace (i : Instr) : ∀ c ∈ ascii (mnemonic i), (c != asciiCode ' ') = true := by
  cases i <;> simp only [mnemonic] <;> decide

theorem assemble_line {i : Instr} {fmt op : Nat} {parts : List (List Byte)} (hname : Names i fmt op)
    (hne : parts ≠ []) (hparts : ∀ t ∈ parts, PartText t) :
    assemble (ascii (mnemonic i) ++ ascii [' '] ++ (ascii [',', ' ']).intercalate parts) = lineRequest fmt op parts := by
  have hline : ascii (mnemonic i) ++ ascii [' '] ++ (ascii [',', ' ']).intercalate parts =
      ascii (mnemonic i) ++ asciiCode ' ' :: (ascii [',', ' ']).intercalate parts := by simp [ascii]
  have hhead : (ascii (mnemonic i) ++ asciiCode ' ' :: (ascii [',', ' ']).intercalate parts).takeWhile
      (fun c => c != asciiCode ' ') = ascii (mnemonic i) := by
    rw [List.takeWhile_append_of_pos (mnemonic_nospace i)]
    simp
  rw [hline, assemble]
  simp only [hhead, List.drop_left, hname.unit, hname.operator, split_intercalate hne hparts]

/-- The operand words of a line, as they are written: `x`, and `y` where the operation reads it. -/
def operandParts (i : Instr) (x y : Word) : List (List Byte) :=
  if usesY i then [portText x, portText y] else [portText x]

/-- The port `Y` of the request that the line of `i` stands for (log entry 7). -/
def writtenY (i : Instr) (y : Word) : Word := if usesY i then y else 0#32

theorem operandParts_ne_nil (i : Instr) (x y : Word) : operandParts i x y ≠ [] := by
  unfold operandParts
  split_ifs <;> exact List.cons_ne_nil _ _

theorem partText_operandParts (i : Instr) (x y : Word) : ∀ t ∈ operandParts i x y, PartText t := by
  unfold operandParts
  split_ifs <;> simp [partText_portText]

/-- Only an `ID` line may leave `Y` out. -/
theorem lineOperands_operandParts {i : Instr} {op : Nat} (hid : usesY i = false → op = 0) (x y : Word) :
    lineOperands op (operandParts i x y) = some (x, writtenY i y) := by
  unfold operandParts writtenY
  split_ifs with h
  · simp [lineOperands, linePort_portText]
  · simp [lineOperands, linePort_portText, hid (by simpa using h)]

/-- The line of `i` reads back, whatever the port words are. -/
def ReadsBack (i : Instr) : Prop :=
  ∀ x y, assemble (assemblyLine i x y) = some { cmd := encode i, x := x, y := writtenY i y }

/-- An FX line: the pair stands before the operands. -/
theorem readsBack_fx {i : Instr} {op a b : Nat} (hname : Names i 0 op)
    (hid : usesY i = false → op = 0) (hparts : ∀ x y, lineParts i x y = dec a :: dec b :: operandParts i x y)
    (henc : encode i = cmdWord 0 op a b) (hfit : FieldsFit a b) : ReadsBack i := by
  intro x y
  have htext : ∀ t ∈ dec a :: dec b :: operandParts i x y, PartText t :=
    List.forall_mem_cons.mpr ⟨partText_dec a, List.forall_mem_cons.mpr ⟨partText_dec b, partText_operandParts i x y⟩⟩
  rw [assemblyLine, hparts, assemble_line hname (List.cons_ne_nil _ _) htext]
  simp [lineRequest, lineField_dec hfit.1, lineField_dec hfit.2, lineOperands_operandParts hid, henc]

/-- An H or S line: the operands stand alone. -/
theorem readsBack_float {i : Instr} {fmt op : Nat} (hname : Names i fmt op) (hfmt : fmt ≠ 0)
    (hid : usesY i = false → op = 0) (hparts : ∀ x y, lineParts i x y = operandParts i x y)
    (henc : encode i = cmdWord fmt op 0 0) : ReadsBack i := by
  intro x y
  rw [assemblyLine, hparts, assemble_line hname (operandParts_ne_nil i x y) (partText_operandParts i x y)]
  simp [lineRequest, hfmt, lineOperands_operandParts hid, henc]

/-- Settles O58: the mnemonic names the unit and the operator, and the parts are read as they are written. -/
theorem assemblyLineReadsBack : Obligations.AssemblyLineReadsBack := by
  intro i hi
  change ReadsBack i
  cases i with
  | fxId a b => exact readsBack_fx (op := 0) ⟨rfl, rfl⟩ (fun _ => rfl) (fun _ _ => rfl) rfl (of_decide_eq_true hi)
  | fxAdd a b => exact readsBack_fx (op := 1) ⟨rfl, rfl⟩ nofun (fun _ _ => rfl) rfl (of_decide_eq_true hi)
  | fxSub a b => exact readsBack_fx (op := 2) ⟨rfl, rfl⟩ nofun (fun _ _ => rfl) rfl (of_decide_eq_true hi)
  | fxMul a b => exact readsBack_fx (op := 3) ⟨rfl, rfl⟩ nofun (fun _ _ => rfl) rfl (of_decide_eq_true hi)
  | fxDiv a b => exact readsBack_fx (op := 4) ⟨rfl, rfl⟩ nofun (fun _ _ => rfl) rfl (of_decide_eq_true hi)
  | hId => exact readsBack_float (fmt := 1) (op := 0) ⟨rfl, rfl⟩ (by decide) (fun _ => rfl) (fun _ _ => rfl) rfl
  | hAdd => exact readsBack_float (fmt := 1) (op := 1) ⟨rfl, rfl⟩ (by decide) nofun (fun _ _ => rfl) rfl
  | hSub => exact readsBack_float (fmt := 1) (op := 2) ⟨rfl, rfl⟩ (by decide) nofun (fun _ _ => rfl) rfl
  | hMul => exact readsBack_float (fmt := 1) (op := 3) ⟨rfl, rfl⟩ (by decide) nofun (fun _ _ => rfl) rfl
  | hDiv => exact readsBack_float (fmt := 1) (op := 4) ⟨rfl, rfl⟩ (by decide) nofun (fun _ _ => rfl) rfl
  | sId => exact readsBack_float (fmt := 2) (op := 0) ⟨rfl, rfl⟩ (by decide) (fun _ => rfl) (fun _ _ => rfl) rfl
  | sAdd => exact readsBack_float (fmt := 2) (op := 1) ⟨rfl, rfl⟩ (by decide) nofun (fun _ _ => rfl) rfl
  | sSub => exact readsBack_float (fmt := 2) (op := 2) ⟨rfl, rfl⟩ (by decide) nofun (fun _ _ => rfl) rfl
  | sMul => exact readsBack_float (fmt := 2) (op := 3) ⟨rfl, rfl⟩ (by decide) nofun (fun _ _ => rfl) rfl
  | sDiv => exact readsBack_float (fmt := 2) (op := 4) ⟨rfl, rfl⟩ (by decide) nofun (fun _ _ => rfl) rfl

end Sys2Proof.Machine
end

section
/-! The numbers of fixed-point patterns under `normalize` and `negate`, the sign-magnitude form, and the laws of the
fixed-point unit that follow (40_fixed_arith.md R100 to R108, R115 to R119). -/

namespace Sys2Proof

variable {n : Nat}

/-! ### Numbers of patterns -/

theorem fxVal_neg_iff {v : Nat} (hv : v < 2 ^ n) : fxVal n v < 0 ↔ 2 ^ (n - 1) ≤ v := by
  have hv' : (v : Int) < 2 ^ n := by exact_mod_cast hv
  unfold fxVal
  split_ifs <;> omega

theorem fxHasSign_iff_fxVal_neg {v : Nat} (hn : 1 ≤ n) (hv : v < 2 ^ n) : fxHasSign n v = true ↔ fxVal n v < 0 :=
  (fxHasSign_iff hn hv).trans (fxVal_neg_iff hv).symm

@[simp] theorem fxNormalize_zero (n : Nat) : fxNormalize n 0 = 0 := fxNormalize_of_lt (x := 0) (by positivity)

theorem fxVal_fxNormalize_dvd (n : Nat) (z : Int) : (2 : Int) ^ n ∣ fxVal n (fxNormalize n z) - z := by
  simpa using (fxVal_sub_self_dvd n (fxNormalize n z)).add (normalize_dvd n z)

/-- A number in the range of the format is the number of its normalised pattern. -/
theorem fxVal_fxNormalize {z : Int} (hn : 1 ≤ n) (hlo : -(2 : Int) ^ (n - 1) ≤ z) (hhi : z < 2 ^ (n - 1)) :
    fxVal n (fxNormalize n z) = z :=
  fxVal_unique hn (fxNormalize_lt n z) (fxVal_fxNormalize_dvd n z) hlo hhi

/-- A number in the range of the format is negative exactly when its normalised pattern has the sign bit set. -/
theorem fxHasSign_fxNormalize_iff {z : Int} (hn : 1 ≤ n) (hlo : -(2 : Int) ^ (n - 1) ≤ z) (hhi : z < 2 ^ (n - 1)) :
    fxHasSign n (fxNormalize n z) = true ↔ z < 0 := by
  rw [fxHasSign_iff_fxVal_neg hn (fxNormalize_lt n z), fxVal_fxNormalize hn hlo hhi]

/-! ### Negation, addition and subtraction through the numbers -/

theorem fxNegate_eq_fxNormalize_neg (n v : Nat) : fxNegate n v = fxNormalize n (-(v : Int)) :=
  fxNormalize_congr ⟨1, by ring⟩

theorem fxNegate_eq_fxNormalize_fxVal (n v : Nat) : fxNegate n v = fxNormalize n (-fxVal n v) := by
  rw [fxNegate_eq_fxNormalize_neg]
  refine fxNormalize_congr ?_
  simpa [sub_eq_add_neg, add_comm] using fxVal_sub_self_dvd n v

theorem fxAdd_eq_fxNormalize_fxVal (n x y : Nat) : fxAdd n x y = fxNormalize n (fxVal n x + fxVal n y) := by
  refine (fxNormalize_congr ?_).symm
  rw [add_sub_add_comm]
  exact (fxVal_sub_self_dvd n x).add (fxVal_sub_self_dvd n y)

theorem fxSub_eq_fxNormalize_fxVal (n x y : Nat) : fxSub n x y = fxNormalize n (fxVal n x - fxVal n y) := by
  refine (fxNormalize_congr ?_).symm
  rw [sub_sub_sub_comm]
  exact (fxVal_sub_self_dvd n x).sub (fxVal_sub_self_dvd n y)

theorem fxNegate_fxNegate {v : Nat} (hv : v < 2 ^ n) : fxNegate n (fxNegate n v) = v := by
  have hneg : fxNegate n v < 2 ^ n := fxNormalize_lt n _
  rw [fxNegate_eq hneg, fxNegate_eq hv]
  split_ifs <;> omega

/-- The most negative pattern is its own negation, since `2^n - 2^(n-1) = 2^(n-1)`. -/
theorem fxNegate_mostNegative (hn : 1 ≤ n) : fxNegate n (2 ^ (n - 1)) = 2 ^ (n - 1) := by
  have hpow := two_pow_pred hn
  have hpos : 0 < 2 ^ (n - 1) := by positivity
  rw [fxNegate_eq (by omega), if_neg hpos.ne']
  omega

theorem fxVal_mostNegative (hn : 1 ≤ n) : fxVal n (2 ^ (n - 1)) = -2 ^ (n - 1) := by
  have hpow : (2 : Int) ^ n = 2 * 2 ^ (n - 1) := by exact_mod_cast two_pow_pred hn
  rw [fxVal, if_pos le_rfl, hpow]
  push_cast
  ring

/-- The number of a pattern determines the pattern. -/
theorem fxNormalize_fxVal {v : Nat} (hv : v < 2 ^ n) : fxNormalize n (fxVal n v) = v := by
  rw [fxNormalize_congr (fxVal_sub_self_dvd n v), fxNormalize_of_lt hv]

theorem fxVal_ne_lowest {v : Nat} (hn : 1 ≤ n) (hv : v < 2 ^ n) (hne : v ≠ 2 ^ (n - 1)) :
    fxVal n v ≠ -2 ^ (n - 1) := by
  intro h
  have hlt : 2 ^ (n - 1) < 2 ^ n := Nat.pow_lt_pow_right (by decide) (by omega)
  rw [← fxVal_mostNegative hn] at h
  exact hne (by rw [← fxNormalize_fxVal hv, h, fxNormalize_fxVal hlt])

theorem fxVal_fxNegate {v : Nat} (hn : 1 ≤ n) (hv : v < 2 ^ n) (hne : v ≠ 2 ^ (n - 1)) :
    fxVal n (fxNegate n v) = -fxVal n v := by
  obtain ⟨hlo, hhi⟩ := fxVal_bounds hn hv
  have hmost : fxVal n v ≠ -2 ^ (n - 1) := fxVal_ne_lowest hn hv hne
  rw [fxNegate_eq_fxNormalize_fxVal]
  exact fxVal_fxNormalize hn (by omega) (by omega)

/-! ### Sign and magnitude -/

/-- The integer with a sign, set for a negative one, and a magnitude. -/
def signedInt (s : Bool) (m : Nat) : Int := if s then -(m : Int) else m

@[simp] theorem signedInt_false (m : Nat) : signedInt false m = m := rfl

@[simp] theorem signedInt_true (m : Nat) : signedInt true m = -(m : Int) := rfl

@[simp] theorem signedInt_zero (s : Bool) : signedInt s 0 = 0 := by cases s <;> rfl

theorem signedInt_natAbs (z : Int) : signedInt (decide (z < 0)) z.natAbs = z := by
  by_cases hz : z < 0
  · rw [decide_eq_true hz, signedInt_true]; omega
  · rw [decide_eq_false hz, signedInt_false]; omega

theorem signedInt_neg_iff {s : Bool} {m : Nat} (hm : 0 < m) : signedInt s m < 0 ↔ s = true := by
  cases s
  · simp
  · simpa using hm

theorem signedInt_bounds {s : Bool} {m k : Nat} (hm : m < 2 ^ k) :
    -(2 : Int) ^ k ≤ signedInt s m ∧ signedInt s m < 2 ^ k := by
  have hm' : (m : Int) < 2 ^ k := by exact_mod_cast hm
  cases s
  · rw [signedInt_false]; omega
  · rw [signedInt_true]; omega

theorem signedInt_mul (s t : Bool) (m k : Nat) : signedInt s m * signedInt t k = signedInt (s != t) (m * k) := by
  cases s <;> cases t <;> simp

/-- Truncation toward zero divides the magnitudes, whatever the signs (40_fixed_arith.md R119). -/
theorem signedInt_tdiv (s t : Bool) (m k : Nat) :
    Int.tdiv (signedInt s m) (signedInt t k) = signedInt (s != t) (m / k) := by
  cases s <;> cases t <;> simp [Int.neg_tdiv, Int.tdiv_neg]

/-- A product divided by `k`, truncated toward zero: the exclusive or of the signs and the floored magnitude. -/
theorem tdiv_mul_eq_signedInt (p q : Int) (k : Nat) :
    Int.tdiv (p * q) k = signedInt (decide (p < 0) != decide (q < 0)) (p.natAbs * q.natAbs / k) := by
  conv_lhs => rw [← signedInt_natAbs p, ← signedInt_natAbs q, ← signedInt_false k, signedInt_mul, signedInt_tdiv,
    Bool.bne_false]

/-- A multiple of `k` divided, truncated toward zero: the exclusive or of the signs and the floored magnitude. -/
theorem mul_tdiv_eq_signedInt (p q : Int) (k : Nat) :
    Int.tdiv (p * k) q = signedInt (decide (p < 0) != decide (q < 0)) (p.natAbs * k / q.natAbs) := by
  conv_lhs => rw [← signedInt_natAbs p, ← signedInt_natAbs q, ← signedInt_false k, signedInt_mul, signedInt_tdiv,
    Bool.bne_false]

theorem signedInt_of_iff {p q : Prop} [Decidable p] [Decidable q] (h : p ↔ q) (m : Nat) :
    signedInt (decide p != decide q) m = m := by simp [h]

theorem signedInt_of_not_iff {p q : Prop} [Decidable p] [Decidable q] (h : ¬ (p ↔ q)) (m : Nat) :
    signedInt (decide p != decide q) m = -(m : Int) := by
  have hne : (decide p != decide q) = true := by simpa using h
  rw [hne, signedInt_true]

theorem fxApplySign_eq (n : Nat) (s : Bool) (p : Nat) : fxApplySign n s p = fxNormalize n (signedInt s p) := by
  cases s <;> rfl

/-- The sign-magnitude form is the sign and the absolute value of the number (40_fixed_arith.md R103). -/
theorem fxSignmag_eq {v : Nat} (hn : 1 ≤ n) (hv : v < 2 ^ n) :
    fxSignmag n v = (decide (fxVal n v < 0), (fxVal n v).natAbs) := by
  have hsign := fxHasSign_iff hn hv
  by_cases hneg : fxVal n v < 0
  · have hhigh : 2 ^ (n - 1) ≤ v := (fxVal_neg_iff hv).mp hneg
    have hval : fxVal n v = v - (2 ^ n : Nat) := by simp [fxVal, hhigh]
    have hpos : 0 < 2 ^ (n - 1) := by positivity
    rw [fxSignmag, if_pos (hsign.mpr hhigh), fxNegate_eq hv, if_neg (by omega), decide_eq_true hneg, hval]
    congr 1
    omega
  · have hlow : ¬ 2 ^ (n - 1) ≤ v := mt (fxVal_neg_iff hv).mpr hneg
    rw [fxSignmag, if_neg (mt hsign.mp hlow), decide_eq_false hneg]
    simp [fxVal, hlow]

theorem fxSignmag_snd_le {v : Nat} (hn : 1 ≤ n) (hv : v < 2 ^ n) : (fxSignmag n v).2 ≤ 2 ^ (n - 1) := by
  rw [fxSignmag_eq hn hv]
  exact fxVal_natAbs_le hn hv

/-! ### Multiplication and division through the numbers -/

section
variable {a b x y : Nat} (hn : 1 ≤ a + b) (hx : x < 2 ^ (a + b)) (hy : y < 2 ^ (a + b))
include hn hx hy

/-- The product is put together from the signs and the floored magnitude (40_fixed_arith.md R107). -/
theorem fxMul_eq_signedInt :
    fxMul a b x y = fxNormalize (a + b) (signedInt (decide (fxVal (a + b) x < 0) != decide (fxVal (a + b) y < 0))
      ((fxVal (a + b) x).natAbs * (fxVal (a + b) y).natAbs / 2 ^ b)) := by
  simp only [fxMul, fxSignmag_eq hn hx, fxSignmag_eq hn hy, fxApplySign_eq]

/-- The quotient is put together from the signs and the floored magnitude (40_fixed_arith.md R108). -/
theorem fxDiv_eq_signedInt :
    fxDiv a b x y = fxNormalize (a + b) (signedInt (decide (fxVal (a + b) x < 0) != decide (fxVal (a + b) y < 0))
      ((fxVal (a + b) x).natAbs * 2 ^ b / (fxVal (a + b) y).natAbs)) := by
  simp only [fxDiv, fxSignmag_eq hn hx, fxSignmag_eq hn hy, fxApplySign_eq]

theorem fxMul_eq_tdiv :
    fxMul a b x y = fxNormalize (a + b) (Int.tdiv (fxVal (a + b) x * fxVal (a + b) y) (2 ^ b)) := by
  rw [fxMul_eq_signedInt hn hx hy, ← tdiv_mul_eq_signedInt]
  simp

theorem fxDiv_eq_tdiv :
    fxDiv a b x y = fxNormalize (a + b) (Int.tdiv (fxVal (a + b) x * 2 ^ b) (fxVal (a + b) y)) := by
  rw [fxDiv_eq_signedInt hn hx hy, ← mul_tdiv_eq_signedInt]
  simp

end

/-! ### The laws -/

/-- Settles O22: negation normalises the negative number, and only the number of the most negative pattern has its
negative out of range. -/
theorem fxNormalizeAndNegateLaws : Obligations.FxNormalizeAndNegateLaws := by
  intro n hn
  have hpos : (0 : Int) < 2 ^ (n - 1) := by positivity
  refine ⟨fun raw => ⟨fxNormalize_of_lt (fxNormalize_lt n raw), fxNormalize_lt n raw⟩,
    fun x hx => ⟨fxNegate_eq_fxNormalize_neg n x, fxNegate_fxNegate hx, fxVal_fxNegate hn hx⟩,
    fxNegate_eq (by positivity), fxNegate_mostNegative hn, ?_⟩
  rw [fxNegate_mostNegative hn, fxVal_mostNegative hn]
  omega

/-- Settles O23: the sign bit is the sign of the number, and so the form is `fxSignmag_eq`. -/
theorem fxSignMagnitude : Obligations.FxSignMagnitude := by
  intro n v hn hv
  refine ⟨?_, ?_, ?_, fxSignmag_snd_le hn hv⟩
  · simp only [fxSignmag, fxHasSign_iff hn hv]
  · simp [fxSignmag_eq hn hv]
  · simp [fxSignmag_eq hn hv]

/-- Settles O24: both operations normalise the true result on the numbers. -/
theorem fxAddSubModular : Obligations.FxAddSubModular := by
  intro n x y hn _ _
  rw [fxAdd_eq_fxNormalize_fxVal, fxSub_eq_fxNormalize_fxVal]
  exact ⟨fxVal_fxNormalize_dvd n _, fxVal_fxNormalize_dvd n _, fxVal_fxNormalize hn, fxVal_fxNormalize hn⟩

/-- Settles O25: with one sign form for each operation, equal signs keep the magnitude and unlike signs negate it; a
magnitude below `2^(n-1)` is in range with either sign. -/
theorem fxMulDivSigns : Obligations.FxMulDivSigns := by
  intro a b x y ha hb hx hy n t u
  have hn : 1 ≤ n := by omega
  have hmul : fxMul a b x y = fxNormalize n (signedInt (decide (fxVal n x < 0) != decide (fxVal n y < 0)) t) :=
    fxMul_eq_signedInt hn hx hy
  have hdiv : fxDiv a b x y = fxNormalize n (signedInt (decide (fxVal n x < 0) != decide (fxVal n y < 0)) u) :=
    fxDiv_eq_signedInt hn hx hy
  have hmul_zero (ht : t = 0) : fxMul a b x y = 0 := by
    rw [hmul, ht, signedInt_zero, fxNormalize_zero]
  refine ⟨fun h => ?_, fun h => ?_, fun h => hmul_zero ?_, fun hpos hlt => ?_, hmul_zero, fun _ h => ?_, fun _ h => ?_,
    fun _ h => ?_⟩
  · rw [hmul, signedInt_of_iff h]
  · rw [hmul, signedInt_of_not_iff h]
  · obtain rfl | rfl := h <;> simp [t, fxVal_zero]
  · obtain ⟨hlo, hhi⟩ := signedInt_bounds hlt
    rw [hmul, fxHasSign_fxNormalize_iff hn hlo hhi, signedInt_neg_iff hpos]
    simp
  · rw [hdiv, signedInt_of_iff h]
  · rw [hdiv, signedInt_of_not_iff h]
  · have hu : u = 0 := by simp [u, h, fxVal_zero]
    rw [hdiv, hu, signedInt_zero, fxNormalize_zero]

end Sys2Proof
end

section
/-! What the five operations of the fixed-point unit answer (40_fixed_arith.md R110 to R114). -/

namespace Sys2Proof.Machine

section
variable {s : State} {req : Request} {rest : List Request} (hreq : s.requests = req :: rest)
include hreq

/-- An FX request whose operation cannot fail answers FormatOverflow, or in the legal range the result on the port words
modulo `2^n`. -/
theorem fxRequest_total (a b : Nat) (f : Nat → Nat → Nat) :
    (32 < a + b → fxRequest a b (fun x y => .ok (f x y)) s = .next (s.answered rest (.fail .formatOverflow))) ∧
    (1 ≤ a → 1 ≤ b → a + b ≤ 32 → fxRequest a b (fun x y => .ok (f x y)) s = .next (s.answered rest
      (fxResponse s.params.fxTie a b (f (req.x.toNat % 2 ^ (a + b)) (req.y.toNat % 2 ^ (a + b)))))) :=
  ⟨fun hov => fxRequest_overflow hreq hov _, fun ha hb hab => by
    rw [fxRequest_legal hreq ha hb hab, fxOperand_eq, fxOperand_eq]⟩

end

/-! ### Results on operands taken modulo `2^n` -/

theorem fxAdd_mod (n x y : Nat) : fxAdd n (x % 2 ^ n) (y % 2 ^ n) = (x + y) % 2 ^ n := by
  rw [Nat.add_mod, ← fxNormalize_natCast]
  rfl

theorem fxSub_mod (n x y : Nat) : fxSub n (x % 2 ^ n) (y % 2 ^ n) = fxNormalize n ((x : Int) - y) := by
  refine fxNormalize_congr ?_
  rw [sub_sub_sub_comm, ← fxNormalize_natCast, ← fxNormalize_natCast]
  exact (normalize_dvd n x).sub (normalize_dvd n y)

/-! ### The operations -/

/-- Settles O15: the operation hands on its first operand. -/
theorem fxIdResult : Obligations.FxIdResult := fun a b _ _ _ hreq => fxRequest_total hreq a b fun x _ => x

/-- Settles O16: reducing the operands first does not change the sum modulo `2^n`. -/
theorem fxAddResult : Obligations.FxAddResult := by
  intro a b s req rest hreq
  have h := fxRequest_total hreq a b (fxAdd (a + b))
  rwa [fxAdd_mod] at h

/-- Settles O17: reducing the operands first does not change the difference modulo `2^n`. -/
theorem fxSubResult : Obligations.FxSubResult := by
  intro a b s req rest hreq
  have h := fxRequest_total hreq a b (fxSub (a + b))
  rwa [fxSub_mod] at h

/-- Settles O18: the operation normalises the product of the numbers, truncated toward zero. -/
theorem fxMulResult : Obligations.FxMulResult := by
  intro a b s req rest hreq
  obtain ⟨hover, hlegal⟩ := fxRequest_total hreq a b (fxMul a b)
  refine ⟨hover, fun ha hb hab => ?_⟩
  rw [exec_fxMul, hlegal ha hb hab,
    fxMul_eq_tdiv (Nat.le_add_right_of_le ha) (Nat.mod_lt _ (Nat.two_pow_pos _)) (Nat.mod_lt _ (Nat.two_pow_pos _))]
  rfl

/-- Settles O19: a normalised divisor of 0 fails; for any other the operation normalises the quotient of the numbers,
truncated toward zero. -/
theorem fxDivResult : Obligations.FxDivResult := by
  intro a b s req rest hreq
  refine ⟨fun hov => ?_, fun ha hb hab hzero => ?_, fun ha hb hab hne => ?_⟩
  · rw [exec_fxDiv, fxRequest_overflow hreq hov]
  · rw [exec_fxDiv, fxRequest_legal hreq ha hb hab, fxOperand_eq, fxOperand_eq, if_pos hzero]
  · rw [exec_fxDiv, fxRequest_legal hreq ha hb hab, fxOperand_eq, fxOperand_eq, if_neg hne,
      fxDiv_eq_tdiv (Nat.le_add_right_of_le ha) (Nat.mod_lt _ (Nat.two_pow_pos _)) (Nat.mod_lt _ (Nat.two_pow_pos _))]
    rfl

end Sys2Proof.Machine
end

section
/-! The decimal text of a fixed-point pattern, written through its magnitude in thousandths (41_fixed_render.md R130 to
R138). -/

namespace Sys2Proof

/-! ### Rounding the fraction to three digits -/

/-- Up to three fraction bits, thousandths are exact, since 8 divides 1000. -/
theorem mul_thousand_mod_two_pow {b : Nat} (hb : b ≤ 3) (k : Nat) : k * 1000 % 2 ^ b = 0 := by
  have hdvd : 2 ^ 3 ∣ 1000 := by decide
  exact Nat.mod_eq_zero_of_dvd (((pow_dvd_pow 2 hb).trans hdvd).mul_left k)

theorem tieTo_even_mod_two (q : Nat) : tieTo .even q % 2 = 0 := by
  dsimp only [tieTo]
  split_ifs <;> omega

theorem tieTo_even_eq_or (q : Nat) : tieTo .even q = q ∨ tieTo .even q = q + 1 :=
  ite_eq_or_eq _ q (q + 1)

/-- Settles O26: on a tie `tieTo` decides, and up to three fraction bits there is no remainder that could be a tie. -/
theorem fxRoundingByTie : Obligations.FxRoundingByTie := by
  intro b fr hb hfr
  obtain ⟨hup, hnotie, htie, -⟩ := round_spec (fr * 1000) b hb
  refine ⟨hup, roundScaled_le .up b fr hb hfr, hnotie, fun h => ⟨?_, htie h .down, htie h .up, ?_⟩,
    fun hb3 => mul_thousand_mod_two_pow hb3 fr⟩
  · by_contra hlt
    rw [mul_thousand_mod_two_pow (by omega)] at h
    exact absurd h.symm (Nat.two_pow_pos _).ne'
  · rw [htie h .even]
    exact ⟨tieTo_even_mod_two _, tieTo_even_eq_or _⟩

/-! ### The magnitude in thousandths -/

/-- The magnitude `mag / 2^b` in thousandths, its fraction rounded by `FX_TIE` (R132); a proof tool, no definition of
the model, tied to it by `fxParts_eq_thousandths`. -/
def fxThousandths (t : FxTie) (b mag : Nat) : Nat := mag / 2 ^ b * 1000 + roundScaled t (mag % 2 ^ b * 1000) b

theorem fxParts_eq_thousandths (t : FxTie) {b : Nat} (hb : 1 ≤ b) (mag : Nat) :
    fxParts t b mag = (fxThousandths t b mag / 1000, fxThousandths t b mag % 1000) :=
  fxParts_eq t b mag hb

/-- The default rounds the whole magnitude half up, not only its fraction. -/
theorem fxThousandths_up {b : Nat} (hb : 1 ≤ b) (mag : Nat) :
    fxThousandths .up b mag = (mag * 1000 + 2 ^ (b - 1)) / 2 ^ b := by
  have hsplit : mag * 1000 + 2 ^ (b - 1) = mag % 2 ^ b * 1000 + 2 ^ (b - 1) + 2 ^ b * (mag / 2 ^ b * 1000) := by
    conv_lhs => rw [← Nat.mod_add_div mag (2 ^ b)]
    ring
  obtain ⟨hup, -⟩ := round_spec (mag % 2 ^ b * 1000) b hb
  rw [hsplit, Nat.add_mul_div_left _ _ (Nat.two_pow_pos b), fxThousandths, hup, add_comm]

/-- An integer magnitude has no fraction to round. -/
theorem fxThousandths_integer (t : FxTie) (b k : Nat) : fxThousandths t b (k * 2 ^ b) = k * 1000 := by
  simp [fxThousandths, roundScaled]

/-! ### The text -/

theorem threeDigits_mod_thousand (N : Nat) :
    threeDigits (N % 1000) = [digitByte (N / 100 % 10), digitByte (N / 10 % 10), digitByte (N % 10)] := by
  have hhundreds : N % 1000 / 100 = N / 100 % 10 := by omega
  have htens : N % 1000 / 10 % 10 = N / 10 % 10 := by omega
  have hunits : N % 1000 % 10 = N % 10 := by omega
  rw [threeDigits, hhundreds, htens, hunits]

/-- The rendered digits are all 0 exactly when the rounded magnitude is 0 (R134). -/
theorem fxRender_eq_thousandths (t : FxTie) {a b v : Nat} (hb : 1 ≤ b) (hv : v < 2 ^ (a + b)) :
    fxRender t a b v =
      (if fxVal (a + b) v < 0 ∧ fxThousandths t b (fxVal (a + b) v).natAbs ≠ 0 then ascii ['-'] else []) ++
        dec (fxThousandths t b (fxVal (a + b) v).natAbs / 1000) ++ ascii ['.'] ++
        threeDigits (fxThousandths t b (fxVal (a + b) v).natAbs % 1000) := by
  simp only [fxRender, fxSignmag_eq (Nat.le_add_left_of_le hb) hv, fxParts_eq_thousandths t hb]
  generalize fxThousandths t b (fxVal (a + b) v).natAbs = N
  have hdigits : (N / 1000 ≠ 0 ∨ N % 1000 ≠ 0) ↔ N ≠ 0 := by omega
  simp only [Bool.and_eq_true, decide_eq_true_eq, Bool.or_eq_true, bne_iff_ne, hdigits]

/-- Settles O27: the text through the thousandths, whose last three digits are the fraction. -/
theorem fxRenderWhole : Obligations.FxRenderWhole := by
  intro t a b v _ hb hv mag N
  have htext := fxRender_eq_thousandths t hb hv
  rw [threeDigits_mod_thousand] at htext
  refine ⟨htext, fun ht => ?_⟩
  subst ht
  exact fxThousandths_up hb mag

/-- The most negative pattern stands for `-2^(a-1)`, an integer (R138). -/
theorem fxRender_mostNegative (t : FxTie) {a b : Nat} (ha : 1 ≤ a) (hb : 1 ≤ b) :
    fxRender t a b (2 ^ (a + b - 1)) = ascii ['-'] ++ dec (2 ^ (a - 1)) ++ ascii ['.', '0', '0', '0'] := by
  have hn : 1 ≤ a + b := Nat.le_add_right_of_le ha
  have hlt : 2 ^ (a + b - 1) < 2 ^ (a + b) := Nat.pow_lt_pow_right (by decide) (by omega)
  have hneg : fxVal (a + b) (2 ^ (a + b - 1)) < 0 := (fxVal_neg_iff hlt).mpr le_rfl
  have hmag : (fxVal (a + b) (2 ^ (a + b - 1))).natAbs = 2 ^ (a - 1) * 2 ^ b := by
    rw [fxVal_mostNegative hn, Int.natAbs_neg, Int.natAbs_pow, ← pow_add]
    congr 1
    omega
  have hN : fxThousandths t b (fxVal (a + b) (2 ^ (a + b - 1))).natAbs = 2 ^ (a - 1) * 1000 := by
    rw [hmag, fxThousandths_integer]
  have hpos : 2 ^ (a - 1) * 1000 ≠ 0 := by positivity
  have hzeros : ascii ['.'] ++ threeDigits 0 = ascii ['.', '0', '0', '0'] := by decide
  rw [fxRender_eq_thousandths t hb hlt, hN, if_pos ⟨hneg, hpos⟩, Nat.mul_div_cancel _ (by decide),
    Nat.mul_mod_left, List.append_assoc _ (ascii ['.']), hzeros]

/-- Settles O28: the general text is `fxRender_mostNegative`; the rule's three texts are evaluated. -/
theorem fxMostNegativeText : Obligations.FxMostNegativeText :=
  ⟨fun t _ _ => fxRender_mostNegative t, fun t => by cases t <;> decide⟩

/-- Settles O29: the bounds are those of `fxRender_textBetween`; the two texts that meet them are evaluated. -/
theorem fxTextLength : Obligations.FxTextLength := by
  refine ⟨fun t a b v _ hb hab hv => ?_, fun t => by cases t <;> decide⟩
  have htext := fxRender_textBetween t hb hab hv
  exact ⟨htext.lower, htext.upper⟩

end Sys2Proof
end

section
/-! What the floating operations share (42_float_common.md): the fields and the classes of a pattern, the internal order,
and the renormaliser `construct`. -/

namespace Sys2Proof

/-! ### The fields and the classes (R150 to R156) -/

theorem pattern_eq_sign_add_abs {f : BF} {x : Nat} (hx : f.Pattern x) :
    x = (if f.sign x then 2 ^ (f.width - 1) else 0) + f.abs x := by
  have hsign := sign_iff hx
  have hwidth := width_pos f
  unfold BF.Pattern at hx
  unfold BF.abs
  split_ifs with hs
  · have hle := hsign.mp hs
    rw [Nat.mod_eq_sub_mod hle, Nat.mod_eq_of_lt (by omega)]
    omega
  · rw [Nat.mod_eq_of_lt (not_le.mp (mt hsign.mpr hs)), Nat.zero_add]

theorem abs_eq_fields {f : BF} (hf : f.IsUnit) (x : Nat) : f.abs x = f.expf x * 2 ^ f.m + f.frac x := by
  obtain ⟨hexp, hfrac⟩ := unpack_eq hf (abs_pattern f x)
  obtain ⟨hexpAbs, hfracAbs⟩ := fields_abs hf x
  rw [← hexpAbs, ← hfracAbs, hexp, hfrac, Nat.div_add_mod']

/-- Settles O31: the sign bit over `abs`, and `abs` by its two fields. -/
theorem floatFieldsOfPattern : Obligations.FloatFieldsOfPattern := by
  intro f hf x hx
  refine ⟨?_, expf_le hf x, frac_lt hf x⟩
  rw [Nat.add_assoc, ← abs_eq_fields hf]
  exact pattern_eq_sign_add_abs hx

/-! `classify` follows the field conditions of each class, since the exponent fields 0 and `EXPMAX` differ and no field is
above `EXPMAX`. -/

section
variable {f : BF} (hf : f.IsUnit) (x : Nat)

theorem classify_eq_zero_iff : f.classify x = .zero ↔ f.expf x = 0 ∧ f.frac x = 0 := by
  unfold BF.classify
  split_ifs <;> simp <;> omega

theorem classify_eq_denormal_iff : f.classify x = .denormal ↔ f.expf x = 0 ∧ f.frac x ≠ 0 := by
  unfold BF.classify
  split_ifs <;> simp <;> omega

include hf

theorem classify_eq_normal_iff : f.classify x = .normal ↔ 0 < f.expf x ∧ f.expf x < f.expMax := by
  have hle := expf_le hf x
  unfold BF.classify
  split_ifs <;> simp <;> omega

theorem classify_eq_infinity_iff : f.classify x = .infinity ↔ f.expf x = f.expMax ∧ f.frac x = 0 := by
  have hne := expMax_ne hf
  unfold BF.classify
  split_ifs <;> simp <;> omega

theorem classify_eq_nan_iff : f.classify x = .nan ↔ f.expf x = f.expMax ∧ f.frac x ≠ 0 := by
  have hne := expMax_ne hf
  unfold BF.classify
  split_ifs <;> simp <;> omega

end

/-- Settles O32: each predicate tests the field conditions of its class. -/
theorem exactlyOneClass : Obligations.ExactlyOneClass := by
  intro f hf x
  have hzero := classify_eq_zero_iff (f := f) x
  have hdenormal := classify_eq_denormal_iff (f := f) x
  have hnormal := classify_eq_normal_iff hf x
  have hinfinity := classify_eq_infinity_iff hf x
  have hnan := classify_eq_nan_iff hf x
  refine ⟨⟨hzero, hdenormal, hnormal, hinfinity, hnan⟩, ?_, ?_, ?_, ?_, ?_⟩
  · simp [hzero, BF.isZero]
  · simp [hdenormal, BF.isDenormal]
  · simp [hnormal, BF.isNormal]
  · simp [hinfinity, BF.isInfinity]
  · simp [hnan, BF.isNan]

/-! ### The internal order (R163) -/

theorem magnitude_eq_zero_iff (f : BF) (x : Nat) : f.magnitude x = 0 ↔ f.isZero x = true := by
  have hmantissa : f.magnitude x = 0 ↔ (f.unpack x).2 = 0 := by simp [BF.magnitude, (pow2_pos _).ne']
  rw [hmantissa]
  unfold BF.unpack BF.isZero
  split_ifs with hexp <;> simp [hexp]

theorem magnitude_lt_iff_abs_lt {f : BF} (hf : f.IsUnit) (x y : Nat) :
    f.magnitude x < f.magnitude y ↔ f.abs x < f.abs y := by
  rw [← magnitude_abs hf x, ← magnitude_abs hf y, mag_lt_iff hf (abs_pattern f x) (abs_pattern f y)]

theorem value_of_negative {f : BF} {x : Nat} (h : f.sign x = true) : f.value x = -f.magnitude x := if_pos h

theorem value_of_positive {f : BF} {x : Nat} (h : f.sign x = false) : f.value x = f.magnitude x :=
  if_neg (ne_true_of_eq_false h)

theorem value_of_isZero {f : BF} {x : Nat} (h : f.isZero x = true) : f.value x = 0 := by
  simp [BF.value, (magnitude_eq_zero_iff f x).mpr h]

/-- Two patterns that are not both zeros have a positive sum of magnitudes. -/
theorem magnitudes_add_pos {f : BF} {x y : Nat} (h : ¬ (f.isZero x = true ∧ f.isZero y = true)) :
    0 < f.magnitude x + f.magnitude y := by
  rw [← magnitude_eq_zero_iff, ← magnitude_eq_zero_iff,
    ← add_eq_zero_iff_of_nonneg (mag_nonneg f x) (mag_nonneg f y)] at h
  exact (add_nonneg (mag_nonneg f x) (mag_nonneg f y)).lt_of_ne' h

/-- Settles O47: two zeros are equal, unlike signs decide by themselves, and like signs leave the order of the magnitude
patterns, turned round for negative ones. -/
theorem lessThanIsValueOrder : Obligations.LessThanIsValueOrder := by
  intro f hf x y _ _ _ _
  have hposx := mag_nonneg f x
  have hposy := mag_nonneg f y
  by_cases hzeros : f.isZero x = true ∧ f.isZero y = true
  · obtain ⟨hx, hy⟩ := hzeros
    simp [BF.lessThan, hx, hy, value_of_isZero]
  have hpos := magnitudes_add_pos hzeros
  unfold BF.lessThan
  rw [if_neg (by simpa using hzeros)]
  cases hsx : f.sign x <;> cases hsy : f.sign y
  case false.false => simp [value_of_positive, hsx, hsy, magnitude_lt_iff_abs_lt hf]
  case true.true => simp [value_of_negative, hsx, hsy, magnitude_lt_iff_abs_lt hf]
  case true.false =>
    have hlt : f.value x < f.value y := by rw [value_of_negative hsx, value_of_positive hsy]; linarith
    simpa using hlt
  case false.true =>
    have hle : f.value y ≤ f.value x := by rw [value_of_positive hsx, value_of_negative hsy]; linarith
    simpa using hle

/-! ### The renormaliser (R164 to R172) -/

/-- Shifting the highest set bit of `M` to bit `n` or above leaves a number of `2^n` or more. -/
theorem two_pow_le_shiftBy {M n : Nat} {k : Int} (hM : M ≠ 0) (h : (n : Int) ≤ msb M + k) : 2 ^ n ≤ shiftBy M k := by
  obtain ⟨hle, -⟩ := msb_spec hM
  unfold shiftBy
  split_ifs with hk
  · calc 2 ^ n ≤ 2 ^ (msb M + k.toNat) := Nat.pow_le_pow_right (by decide) (by omega)
      _ = 2 ^ msb M * 2 ^ k.toNat := pow_add ..
      _ ≤ M * 2 ^ k.toNat := Nat.mul_le_mul_right _ hle
  · rw [Nat.le_div_iff_mul_le (by positivity), ← pow_add]
    exact (Nat.pow_le_pow_right (by decide) (by omega)).trans hle

theorem units_of_denormal {f : BF} {g : Nat} (hg : g < 2 ^ f.m) : units f g = g := by
  rw [units, if_pos (Nat.div_eq_of_lt hg)]

theorem fields_div_two_pow {f : BF} {F : Nat} (hF : F < 2 ^ f.m) (E : Nat) : (E * 2 ^ f.m + F) / 2 ^ f.m = E := by
  rw [Nat.add_comm, Nat.add_mul_div_right _ _ (by positivity), Nat.div_eq_of_lt hF, Nat.zero_add]

theorem units_of_normal {f : BF} {E F : Nat} (hE : E ≠ 0) (hF : F < 2 ^ f.m) :
    units f (E * 2 ^ f.m + F) = (2 ^ f.m + F) * 2 ^ (E - 1) := by
  rw [units, fields_div_two_pow hF, if_neg hE, Nat.mul_add_mod', Nat.mod_eq_of_lt hF]

theorem inf_isTruncation {f : BF} {v : ℚ} (hv : pow2 (f.emax + 1) ≤ v) : f.IsTruncation v f.inf :=
  ⟨fun _ => rfl, fun h => absurd hv h.not_ge⟩

/-- A finite pattern is the truncation of a number when its mantissa is that of the number shifted to its exponent: the
next pattern has the mantissa that is larger by one. -/
theorem isTruncation_of_mantissa {f : BF} (hf : f.IsUnit) {exp k : Int} {M g : Nat} (hg : g < f.inf)
    (hunits : units f g = shiftBy M k * 2 ^ (g / 2 ^ f.m - 1))
    (hk : exp = k + (g / 2 ^ f.m - 1 : Nat) + f.emin) : f.IsTruncation (M * pow2 (exp - f.m)) g := by
  obtain ⟨hlo, hhi⟩ := shiftBy_spec M k
  have hnext := units_succ f g
  generalize g / 2 ^ f.m - 1 = j at hunits hk hnext
  have hpos : 0 < pow2 j * pow2 (f.emin - f.m) := mul_pos (pow2_pos _) (pow2_pos _)
  have hv : (M : ℚ) * pow2 (exp - f.m) = M * pow2 k * (pow2 j * pow2 (f.emin - f.m)) := by
    rw [mul_assoc, ← pow2_add, ← pow2_add, hk]
    ring_nf
  have hthis : (units f g : ℚ) * pow2 (f.emin - f.m) = shiftBy M k * (pow2 j * pow2 (f.emin - f.m)) := by
    rw [hunits, Nat.cast_mul, ← pow2_nat, mul_assoc]
  have hsucc : (units f (g + 1) : ℚ) * pow2 (f.emin - f.m) = (shiftBy M k + 1) * (pow2 j * pow2 (f.emin - f.m)) := by
    rw [hnext, Nat.cast_add, ← pow2_nat, add_mul, hthis]
    ring
  refine trunc_of hf hg ?_ ?_
  · rw [hv, hthis]
    exact mul_le_mul_of_nonneg_right hlo hpos.le
  · rw [hv, hsucc]
    exact mul_lt_mul_of_pos_right hhi hpos

/-- The number has the highest set bit of its mantissa as its exponent. -/
theorem pow2_msb_le {M : Nat} (hM : M ≠ 0) (k : Int) : pow2 (msb M + k) ≤ M * pow2 k := by
  rw [pow2_add, pow2_nat]
  exact mul_le_mul_of_nonneg_right (Nat.cast_le.mpr (msb_spec hM).1) (pow2_pos k).le

section
variable {f : BF} (hf : f.IsUnit)
include hf

theorem zero_isTruncation (exp : Int) : f.IsTruncation ((0 : Nat) * pow2 (exp - f.m)) 0 := by
  have hinf : 0 < f.inf := Nat.mul_pos (Nat.pos_of_ne_zero (expMax_ne hf)) (by positivity)
  refine isTruncation_of_mantissa hf (k := exp - f.emin) hinf ?_ (by simp)
  simp [units_zero, shiftBy]

theorem denormal_isTruncation {exp : Int} {M : Nat} (hM : M ≠ 0) (hexp : msb M + (exp - f.m) < f.emin) :
    f.IsTruncation (M * pow2 (exp - f.m)) (shiftBy M (exp - f.emin)) := by
  have hlt : shiftBy M (exp - f.emin) < 2 ^ f.m := shiftBy_lt_two_pow hM (by omega)
  have hinf : 2 ^ f.m ≤ f.inf := Nat.le_mul_of_pos_left _ (Nat.pos_of_ne_zero (expMax_ne hf))
  refine isTruncation_of_mantissa hf (k := exp - f.emin) (hlt.trans_le hinf) ?_ ?_
  · simp [units_of_denormal hlt, Nat.div_eq_of_lt hlt]
  · simp [Nat.div_eq_of_lt hlt]

theorem normal_isTruncation {exp : Int} {M : Nat} (hM : M ≠ 0) (hmin : f.emin ≤ msb M + (exp - f.m))
    (hmax : msb M + (exp - f.m) ≤ f.emax) : f.IsTruncation (M * pow2 (exp - f.m))
      ((msb M + (exp - f.m) + f.bias).toNat * 2 ^ f.m + (shiftBy M (f.m - msb M) - 2 ^ f.m)) := by
  obtain ⟨hexpMax, -⟩ := bias_facts hf
  have hemin : f.emin = 1 - f.bias := rfl
  have hemax : f.emax = f.bias := rfl
  have hlo : 2 ^ f.m ≤ shiftBy M (f.m - msb M) := two_pow_le_shiftBy hM (by omega)
  have hhi : shiftBy M (f.m - msb M) < 2 ^ (f.m + 1) := shiftBy_lt_two_pow hM (by omega)
  obtain ⟨E, hE⟩ : ∃ E : Nat, msb M + (exp - f.m) + f.bias = E := Int.eq_ofNat_of_zero_le (by omega)
  obtain ⟨F, hF⟩ : ∃ F, shiftBy M (f.m - msb M) = 2 ^ f.m + F := Nat.exists_eq_add_of_le hlo
  have hFlt : F < 2 ^ f.m := by rw [hF, pow_succ] at hhi; omega
  rw [hE, hF, Int.toNat_natCast, Nat.add_sub_cancel_left]
  refine isTruncation_of_mantissa hf (k := f.m - msb M) ?_ ?_ ?_
  · calc E * 2 ^ f.m + F < (E + 1) * 2 ^ f.m := by rw [add_mul]; omega
      _ ≤ f.inf := Nat.mul_le_mul_right _ (by omega)
  · rw [fields_div_two_pow hFlt, hF, units_of_normal (by omega) hFlt]
  · rw [fields_div_two_pow hFlt]
    omega

/-- `construct` truncates in each of its cases: zero mantissa (R166), overflow (R169), normal (R168), denormal (R170). -/
theorem construct_isTruncation (exp : Int) (M : Nat) :
    f.IsTruncation (M * pow2 (exp - f.m)) (f.construct exp M) := by
  unfold BF.construct
  split_ifs with hM
  · subst hM
    exact zero_isTruncation hf exp
  extract_lets shift en
  have hen : en = msb M + (exp - f.m) := by omega
  split_ifs with hover hnormal
  · exact inf_isTruncation ((pow2_le (by omega)).trans (pow2_msb_le hM _))
  · rw [hen]
    exact normal_isTruncation hf hM (by omega) (by omega)
  · exact denormal_isTruncation hf hM (by omega)

end

/-- Settles O42: `construct_isTruncation`. -/
theorem constructTruncates : Obligations.ConstructTruncates := fun _ hf => construct_isTruncation hf

end Sys2Proof
end

section
/-! Add and subtract case by case (43_float_addsub.md R180 to R182, R190 to R194): NaNs, infinities, and the sign
tables of finite operands. -/

namespace Sys2Proof

/-! ### The classes of operands and of their negations -/

section
variable {f : BF} (hf : f.IsUnit)
include hf

theorem isNan_eq_decide (x : Nat) : f.isNan x = decide (f.classify x = .nan) := by
  rw [Bool.eq_iff_iff]
  simp [BF.isNan, classify_eq_nan_iff hf]

theorem isInfinity_eq_decide (x : Nat) : f.isInfinity x = decide (f.classify x = .infinity) := by
  rw [Bool.eq_iff_iff]
  simp [BF.isInfinity, classify_eq_infinity_iff hf]

theorem finite_iff_classify (x : Nat) : f.Finite x ↔ f.classify x ≠ .infinity ∧ f.classify x ≠ .nan := by
  rw [BF.Finite, isInfinity_eq_decide hf, isNan_eq_decide hf, decide_eq_false_iff_not, decide_eq_false_iff_not]

variable {x : Nat} (hx : f.Pattern x)
include hx

theorem isNan_negate : f.isNan (f.negate x) = f.isNan x := by
  rw [isNan_eq_decide hf, isNan_eq_decide hf, classify_negate hf hx]

theorem isInfinity_negate : f.isInfinity (f.negate x) = f.isInfinity x := by
  rw [isInfinity_eq_decide hf, isInfinity_eq_decide hf, classify_negate hf hx]

theorem finite_negate (h : f.Finite x) : f.Finite (f.negate x) := by
  rwa [BF.Finite, isNan_negate hf hx, isInfinity_negate hf hx]

theorem isZero_negate : f.isZero (f.negate x) = f.isZero x := by
  obtain ⟨hexp, hfrac⟩ := fields_negate hf hx
  rw [BF.isZero, BF.isZero, hexp, hfrac]

end

/-! ### NaNs and infinities -/

/-- Settles O33: each of the four operations tests its operands for a NaN first. -/
theorem nanOperandGivesCanonicalNan : Obligations.NanOperandGivesCanonicalNan := by
  intro f hf dii q x y h
  have hnan : (f.isNan x || f.isNan y) = true := by simpa [isNan_eq_decide hf] using h
  exact ⟨if_pos hnan, if_pos hnan, if_pos hnan, if_pos hnan⟩

section
variable {f : BF} (hf : f.IsUnit) (q : Nat) {x y : Nat}
include hf

theorem add_of_infinity_left (hx : f.classify x = .infinity) (hy : f.classify y ≠ .nan)
    (hsign : f.classify y = .infinity → f.sign x = f.sign y) : f.add q x y = x := by
  by_cases hinf : f.classify y = .infinity
  · simp [BF.add, isNan_eq_decide hf, isInfinity_eq_decide hf, hx, hinf, hsign hinf]
  · simp [BF.add, isNan_eq_decide hf, isInfinity_eq_decide hf, hx, hinf, hy]

theorem sub_of_infinity_left (hx : f.classify x = .infinity) (hy : f.classify y ≠ .nan)
    (hsign : f.classify y = .infinity → f.sign x ≠ f.sign y) : f.sub q x y = x := by
  by_cases hinf : f.classify y = .infinity
  · simp [BF.sub, isNan_eq_decide hf, isInfinity_eq_decide hf, hx, hinf, hsign hinf]
  · simp [BF.sub, isNan_eq_decide hf, isInfinity_eq_decide hf, hx, hinf, hy]

theorem add_of_infinities_unlike (hx : f.classify x = .infinity) (hy : f.classify y = .infinity)
    (hsign : f.sign x ≠ f.sign y) : f.add q x y = q := by
  simp [BF.add, isNan_eq_decide hf, isInfinity_eq_decide hf, hx, hy, hsign]

theorem sub_of_infinities_like (hx : f.classify x = .infinity) (hy : f.classify y = .infinity)
    (hsign : f.sign x = f.sign y) : f.sub q x y = q := by
  simp [BF.sub, isNan_eq_decide hf, isInfinity_eq_decide hf, hx, hy, hsign]

variable (hnan : f.classify x ≠ .nan) (hx : f.classify x ≠ .infinity) (hy : f.classify y = .infinity)
include hnan hx hy

theorem add_of_infinity_right : f.add q x y = y := by
  simp [BF.add, isNan_eq_decide hf, isInfinity_eq_decide hf, hnan, hx, hy]

theorem sub_of_infinity_right : f.sub q x y = f.negate y := by
  simp [BF.sub, isNan_eq_decide hf, isInfinity_eq_decide hf, hnan, hx, hy]

end

/-- Settles O34: an infinite `x` is the result unless two infinities meet that cancel; otherwise an infinite `y` is. -/
theorem addSubInfinities : Obligations.AddSubInfinities := by
  intro f hf q x y hnx hny
  refine ⟨fun hx hy hs => ⟨?_, ?_⟩, fun hx hy hs => ⟨?_, ?_⟩, fun hx hy => ⟨?_, ?_⟩, fun hx hy => ⟨?_, ?_⟩⟩
  · exact add_of_infinity_left hf q hx hny fun _ => hs
  · exact sub_of_infinities_like hf q hx hy hs
  · exact add_of_infinities_unlike hf q hx hy hs
  · exact sub_of_infinity_left hf q hx hny fun _ => hs
  · exact add_of_infinity_left hf q hx hny fun h => absurd h hy
  · exact sub_of_infinity_left hf q hx hny fun h => absurd h hy
  · exact add_of_infinity_right hf q hnx hx hy
  · exact sub_of_infinity_right hf q hnx hx hy

/-! ### The sign tables -/

/-- `g`, negated when `s` is set; a proof tool for the rows of the sign tables, no definition of the model. -/
def negateIf (f : BF) (s : Bool) (g : Nat) : Nat := if s then f.negate g else g

@[simp] theorem negateIf_false (f : BF) (g : Nat) : negateIf f false g = g := rfl

@[simp] theorem negateIf_true (f : BF) (g : Nat) : negateIf f true g = f.negate g := rfl

@[simp] theorem negate_negateIf_not (f : BF) (s : Bool) (g : Nat) :
    f.negate (negateIf f (!s) g) = negateIf f s g := by
  cases s
  · exact negate_negate f g
  · rfl

section
variable {f : BF} (q : Nat) {x y : Nat} (hx : f.Finite x) (hy : f.Finite y)
include hx hy

/-- The sign table of `add` (R182): like signs add the magnitudes, unlike signs subtract them, and the sign of `x`
negates the result. -/
theorem add_of_finite :
    f.add q x y =
      negateIf f (f.sign x)
        (if f.sign x = f.sign y then f.addmag (f.abs x) (f.abs y) else f.submag (f.abs x) (f.abs y)) := by
  obtain ⟨hix, hnx⟩ := hx
  obtain ⟨hiy, hny⟩ := hy
  cases hsx : f.sign x <;> cases hsy : f.sign y <;> simp [BF.add, hix, hnx, hiy, hny, hsx, hsy]

/-- The sign table of `sub` (R192): like signs subtract the magnitudes, unlike signs add them. -/
theorem sub_of_finite :
    f.sub q x y =
      negateIf f (f.sign x)
        (if f.sign x = f.sign y then f.submag (f.abs x) (f.abs y) else f.addmag (f.abs x) (f.abs y)) := by
  obtain ⟨hix, hnx⟩ := hx
  obtain ⟨hiy, hny⟩ := hy
  cases hsx : f.sign x <;> cases hsy : f.sign y <;> simp [BF.sub, hix, hnx, hiy, hny, hsx, hsy]

end

/-- Settles O35: the four rows of `add_of_finite` and `sub_of_finite`. -/
theorem addSubSignTables : Obligations.AddSubSignTables := by
  intro f q x y hx hy
  rw [add_of_finite q hx hy, sub_of_finite q hx hy]
  refine ⟨fun hsx hsy => ?_, fun hsx hsy => ?_, fun hsx hsy => ?_, fun hsx hsy => ?_⟩ <;> simp [hsx, hsy]

/-! ### Negated operands -/

section
variable {f : BF} (hf : f.IsUnit) (q : Nat) {x y : Nat} (hx : f.Pattern x) (hy : f.Pattern y)
include hf hy

/-- The tests see the class of `y`, which negation keeps, and its sign, which negation flips: each row of `sub` is a row
of `add` (R194). -/
theorem sub_eq_add_negate : f.sub q x y = f.add q x (f.negate y) := by
  simp only [BF.sub, BF.add, isNan_negate hf hy, isInfinity_negate hf hy, sign_negate hy, abs_negate hy]
  cases f.sign x <;> cases f.sign y <;> rfl

include hx

theorem add_negate_negate_of_finite (hfx : f.Finite x) (hfy : f.Finite y) :
    f.add q x y = f.negate (f.add q (f.negate x) (f.negate y)) := by
  rw [add_of_finite q hfx hfy, add_of_finite q (finite_negate hf hx hfx) (finite_negate hf hy hfy),
    sign_negate hx, sign_negate hy, abs_negate hx, abs_negate hy, negate_negateIf_not]
  simp only [Bool.not_inj_iff]

/-- Negating both operands negates the sum, unless it is the NaN of two infinities (R195). -/
theorem add_negate_negate (hnx : f.classify x ≠ .nan) (hny : f.classify y ≠ .nan)
    (hinf : ¬ (f.classify x = .infinity ∧ f.classify y = .infinity ∧ f.sign x ≠ f.sign y)) :
    f.add q x y = f.negate (f.add q (f.negate x) (f.negate y)) := by
  have hcx := classify_negate hf hx
  have hcy := classify_negate hf hy
  by_cases hix : f.classify x = .infinity
  · have hsign (hiy : f.classify y = .infinity) : f.sign x = f.sign y := by
      by_contra hne
      exact hinf ⟨hix, hiy, hne⟩
    rw [add_of_infinity_left hf q hix hny hsign, add_of_infinity_left hf q (hcx.trans hix) (hcy ▸ hny) fun h => ?_,
      negate_negate]
    rw [sign_negate hx, sign_negate hy, hsign (hcy ▸ h)]
  by_cases hiy : f.classify y = .infinity
  · rw [add_of_infinity_right hf q hnx hix hiy,
      add_of_infinity_right hf q (hcx ▸ hnx) (hcx ▸ hix) (hcy.trans hiy), negate_negate]
  · exact add_negate_negate_of_finite hf q hx hy ((finite_iff_classify hf x).mpr ⟨hix, hnx⟩)
      ((finite_iff_classify hf y).mpr ⟨hiy, hny⟩)

end

/-- Settles O36: `sub_eq_add_negate`. -/
theorem subIsAddOfNegate : Obligations.SubIsAddOfNegate := fun _ hf q _ _ _ hy => sub_eq_add_negate hf q hy

/-- Settles O37: `add_negate_negate`, for `sub` at the negation of `y`. -/
theorem signReductionConsistency : Obligations.SignReductionConsistency := by
  intro f hf q x y hx hy hnx hny
  refine ⟨add_negate_negate hf q hx hy hnx hny, fun hinf => ?_⟩
  rw [sub_eq_add_negate hf q hy, sub_eq_add_negate hf q (negate_pattern hy)]
  refine add_negate_negate hf q hx (negate_pattern hy) hnx (by rwa [classify_negate hf hy]) ?_
  rwa [classify_negate hf hy, sign_negate hy, ne_eq, Bool.eq_not, not_not]

end Sys2Proof
end

section
/-! What the four add and subtract operations answer (43_float_addsub.md R200 to R203). -/

namespace Sys2Proof.Machine

theorem floatBinary_single {s : State} {req : Request} {rest : List Request} (hreq : s.requests = req :: rest)
    (op : Nat → Nat → Nat) :
    floatBinary single op s = .next (s.answered rest (floatResponse single (op req.x.toNat req.y.toNat))) := by
  rw [floatBinary_cons hreq, wideFor_single, wideFor_single]
  rfl

/-- Settles O53: the operands fit their format, so the shared shape of a floating request answers. -/
theorem floatAddSubResults : Obligations.FloatAddSubResults := by
  intro s req rest hreq
  exact ⟨fun hx hy => ⟨floatBinary_half_fits hreq hx hy _, floatBinary_half_fits hreq hx hy _⟩,
    floatBinary_single hreq _, floatBinary_single hreq _⟩

end Sys2Proof.Machine
end

section
/-! Numbers of the format and their truncation (42_float_common.md R172): what a finite pattern can stand for, and when
two numbers have one truncation. -/

namespace Sys2Proof

theorem isTruncation_unique {f : BF} {v : ℚ} {g h : Nat} (hg : f.IsTruncation v g) (hh : f.IsTruncation v h) :
    g = h := by
  obtain hover | hlt := le_or_gt (pow2 (f.emax + 1)) v
  · rw [hg.1 hover, hh.1 hover]
  · obtain ⟨hginf, hgle, hgmax⟩ := hg.2 hlt
    obtain ⟨hhinf, hhle, hhmax⟩ := hh.2 hlt
    exact le_antisymm (hhmax g hginf hgle) (hgmax h hhinf hhle)

/-- With the highest bit of a mantissa set, the pattern is the one with the fields of mantissa and exponent. -/
theorem exists_units_eq_of_normal {f : BF} {M j : Nat} (hlo : 2 ^ f.m ≤ M) (hhi : M < 2 ^ (f.m + 1))
    (hj : j + 2 ≤ f.expMax) : ∃ g < f.inf, units f g = M * 2 ^ j := by
  obtain ⟨F, rfl⟩ : ∃ F, M = 2 ^ f.m + F := Nat.exists_eq_add_of_le hlo
  have hF : F < 2 ^ f.m := by rw [pow_succ] at hhi; omega
  refine ⟨(j + 1) * 2 ^ f.m + F, ?_, units_of_normal j.succ_ne_zero hF⟩
  calc (j + 1) * 2 ^ f.m + F < (j + 2) * 2 ^ f.m := by linarith
    _ ≤ f.inf := Nat.mul_le_mul_right _ hj

/-- A mantissa and an exponent that fit the format give the number of a finite pattern: a mantissa is doubled until its
highest bit is set or the exponent is the lowest one. -/
theorem exists_units_eq {f : BF} {M j : Nat} (hM : M < 2 ^ (f.m + 1)) (hj : j + 2 ≤ f.expMax) :
    ∃ g < f.inf, units f g = M * 2 ^ j := by
  induction j generalizing M with
  | zero =>
    obtain hlo | hlt := le_or_gt (2 ^ f.m) M
    · exact exists_units_eq_of_normal hlo hM hj
    · have hinf : 2 ^ f.m ≤ f.inf := Nat.le_mul_of_pos_left _ (by omega)
      exact ⟨M, hlt.trans_le hinf, by rw [units_of_denormal hlt, pow_zero, mul_one]⟩
  | succ j ih =>
    obtain hlo | hlt := le_or_gt (2 ^ f.m) M
    · exact exists_units_eq_of_normal hlo hM hj
    · obtain ⟨g, hg, hunits⟩ := ih (M := M * 2) (by rw [pow_succ]; omega) (by omega)
      exact ⟨g, hg, by rw [hunits, pow_succ]; ring⟩

section
variable {f : BF} (hf : f.IsUnit)
include hf

theorem magnitude_isTruncation {g : Nat} (hg : g < f.inf) : f.IsTruncation (f.magnitude g) g := by
  have heq := magnitude_eq hf (hg.trans (inf_lt hf))
  refine trunc_of hf hg heq.ge ?_
  rw [heq]
  exact mul_lt_mul_of_pos_right (Nat.cast_lt.mpr (units_mono f g.lt_succ_self)) (pow2_pos _)

/-- `construct` is exact where mantissa and exponent fit the format: it truncates, and the number is one of the format. -/
theorem construct_of_fits {E : Int} {M : Nat} (hmin : f.emin ≤ E) (hmax : E ≤ f.emax) (hM : M < 2 ^ (f.m + 1)) :
    f.construct E M < f.inf ∧ f.magnitude (f.construct E M) = M * pow2 (E - f.m) := by
  obtain ⟨hexpMax, hbias⟩ := bias_facts hf
  have hemin : f.emin = 1 - f.bias := rfl
  have hemax : f.emax = f.bias := rfl
  obtain ⟨j, hj⟩ : ∃ j : Nat, E = f.emin + j := Int.le.dest hmin |>.imp fun _ h => h.symm
  obtain ⟨g, hg, hunits⟩ := exists_units_eq hM (j := j) (by omega)
  have hmag : f.magnitude g = M * pow2 (E - f.m) := by
    rw [magnitude_eq hf (hg.trans (inf_lt hf)), hunits, Nat.cast_mul, ← pow2_nat, mul_assoc, ← pow2_add, hj]
    ring_nf
  have heq : f.construct E M = g :=
    isTruncation_unique (construct_isTruncation hf E M) (hmag ▸ magnitude_isTruncation hf hg)
  rw [heq]
  exact ⟨hg, hmag⟩

/-- Dropping a part of a number below the unit of `E` does not change its truncation, when the rest has the exponent `E`
or more: no number of the format lies between. -/
theorem isTruncation_of_floor {E : Int} {k g : Nat} {v : ℚ} (hlo : k * pow2 (E - f.m) ≤ v)
    (hhi : v < (k + 1) * pow2 (E - f.m)) (hE : E ≤ f.emin ∨ 2 ^ f.m ≤ k) (hmax : E ≤ f.emax)
    (hg : f.IsTruncation (k * pow2 (E - f.m)) g) : f.IsTruncation v g := by
  have hfloor (j : Nat) (h : j * pow2 (E - f.m) ≤ v) : j * pow2 (E - f.m) ≤ k * pow2 (E - f.m) := by
    have hlt : (j : ℚ) < k + 1 := lt_of_mul_lt_mul_right (h.trans_lt hhi) (pow2_pos _).le
    have hle : j ≤ k := Nat.le_of_lt_succ (by exact_mod_cast hlt)
    exact mul_le_mul_of_nonneg_right (Nat.cast_le.mpr hle) (pow2_pos _).le
  refine ⟨fun hover => hg.1 ?_, fun hlt => ?_⟩
  · have hunit : pow2 (f.emax + 1) = (2 ^ (f.emax + 1 - E + f.m).toNat : Nat) * pow2 (E - f.m) := by
      rw [← pow2_nat, ← pow2_add]
      congr 1
      omega
    rw [hunit] at hover ⊢
    exact hfloor _ hover
  · obtain ⟨hinf, hle, hlargest⟩ := hg.2 (hlo.trans_lt hlt)
    refine ⟨hinf, hle.trans hlo, fun h hh hv => hlargest h hh ?_⟩
    by_contra! hgt
    have hexp : pow2 E ≤ f.magnitude h ∨ E ≤ f.emin := by
      refine hE.symm.imp_left fun hk => le_trans ?_ hgt.le
      calc pow2 E = (2 ^ f.m : Nat) * pow2 (E - f.m) := by rw [← pow2_nat, ← pow2_add]; ring_nf
        _ ≤ k * pow2 (E - f.m) := mul_le_mul_of_nonneg_right (Nat.cast_le.mpr hk) (pow2_pos _).le
    obtain ⟨j, hj⟩ := mag_multiple hf hh hexp
    rw [hj] at hv hgt
    exact (hfloor j hv).not_gt hgt

end

end Sys2Proof
end

section
/-! The values of sums and differences of magnitudes (43_float_addsub.md R185, R186, R188, R189). -/

namespace Sys2Proof

/-- The mantissa of `b` shifted to the exponent of `a`, as `addmag` and `submag` take it (R185, R186); a proof tool, no
definition of the model. -/
def alignedMantissa (f : BF) (a b : Nat) : Nat := (f.unpack b).2 / 2 ^ ((f.unpack a).1 - (f.unpack b).1).toNat

theorem alignedMantissa_of_exponent_eq {f : BF} {a b : Nat} (h : (f.unpack a).1 = (f.unpack b).1) :
    alignedMantissa f a b = (f.unpack b).2 := by
  simp [alignedMantissa, h]

/-- Aligning rounds the number of `b` down to a multiple of the unit of `a`. -/
theorem alignedMantissa_bounds {f : BF} {a b : Nat} (h : (f.unpack b).1 ≤ (f.unpack a).1) :
    alignedMantissa f a b * pow2 ((f.unpack a).1 - f.m) ≤ f.magnitude b ∧
    f.magnitude b < (alignedMantissa f a b + 1) * pow2 ((f.unpack a).1 - f.m) := by
  obtain ⟨hlo, hhi⟩ := cut_spec (f.unpack b).2 (f.unpack a).1 (f.unpack b).1 f.m h
  exact ⟨hlo, hhi.trans_eq (by rw [Nat.cast_succ]; rfl)⟩

theorem addmag_of_exponent_le {f : BF} {a b : Nat} (h : (f.unpack b).1 ≤ (f.unpack a).1) :
    f.addmag a b = f.construct (f.unpack a).1 ((f.unpack a).2 + alignedMantissa f a b) :=
  if_neg h.not_gt

theorem addmag_comm (f : BF) (a b : Nat) : f.addmag a b = f.addmag b a := by
  obtain hlt | heq | hlt := lt_trichotomy (f.unpack a).1 (f.unpack b).1
  · exact (if_pos hlt).trans (if_neg hlt.not_gt).symm
  · rw [addmag_of_exponent_le heq.ge, addmag_of_exponent_le heq.le, alignedMantissa_of_exponent_eq heq,
      alignedMantissa_of_exponent_eq heq.symm, heq, Nat.add_comm]
  · exact (if_neg hlt.not_gt).trans (if_pos hlt).symm

theorem submagOrdered_eq (f : BF) (a b : Nat) :
    f.submagOrdered a b = f.construct (f.unpack a).1 ((f.unpack a).2 - alignedMantissa f a b) := rfl

section
variable {f : BF} (hf : f.IsUnit) {a b : Nat}
include hf

/-! ### Same-sign addition -/

theorem addmag_isTruncation_of_exponent_le (ha : a < f.inf) (h : (f.unpack b).1 ≤ (f.unpack a).1) :
    f.IsTruncation (f.magnitude a + f.magnitude b) (f.addmag a b) := by
  obtain ⟨-, hmax, -, hnormal⟩ := unpack_facts hf ha
  obtain ⟨hlo, hhi⟩ := alignedMantissa_bounds h
  have ha_eq : f.magnitude a = (f.unpack a).2 * pow2 ((f.unpack a).1 - f.m) := rfl
  rw [addmag_of_exponent_le h]
  refine isTruncation_of_floor hf ?_ ?_ (hnormal.imp Eq.le Nat.le_add_right_of_le) hmax (construct_isTruncation hf _ _)
  · push_cast; linarith
  · push_cast; linarith

/-- The bits that `addmag` drops lie below the unit of its larger operand, so it truncates the exact sum (R188). -/
theorem addmag_isTruncation (ha : a < f.inf) (hb : b < f.inf) :
    f.IsTruncation (f.magnitude a + f.magnitude b) (f.addmag a b) := by
  obtain h | h := le_total (f.unpack b).1 (f.unpack a).1
  · exact addmag_isTruncation_of_exponent_le hf ha h
  · rw [addmag_comm, add_comm]
    exact addmag_isTruncation_of_exponent_le hf hb h

theorem negateIf_eq_withSign {g : Nat} (hg : g ≤ f.inf) (s : Bool) : negateIf f s g = f.withSign s g := by
  obtain ⟨hsign, -, hpattern⟩ := abs_lt_two (hg.trans_lt (inf_lt hf))
  cases s
  · rfl
  · rw [negateIf_true, negate_eq hpattern, hsign, BF.withSign, Nat.add_comm]
    rfl

theorem add_isTruncation_of_sign_eq (q : Nat) {x y : Nat} (hx : f.Finite x) (hy : f.Finite y)
    (hsign : f.sign x = f.sign y) :
    ∃ g, f.add q x y = f.withSign (f.sign x) g ∧ f.IsTruncation (f.magnitude x + f.magnitude y) g := by
  have htrunc := addmag_isTruncation hf (finite_abs_lt hf hx) (finite_abs_lt hf hy)
  rw [magnitude_abs hf, magnitude_abs hf] at htrunc
  refine ⟨_, ?_, htrunc⟩
  rw [add_of_finite q hx hy, if_pos hsign, negateIf_eq_withSign hf (trunc_le_inf htrunc)]

end

/-- Settles O43: like signs of `add`, and of `sub` after the negation of `y`, add the magnitudes. -/
theorem sameSignAddTruncates : Obligations.SameSignAddTruncates := by
  intro f hf q x y hx hy hfx hfy
  refine ⟨add_isTruncation_of_sign_eq hf q hfx hfy, fun hsign => ?_⟩
  have hmag : f.magnitude (f.negate y) = f.magnitude y := by
    rw [← magnitude_abs hf, abs_negate hy, magnitude_abs hf]
  rw [sub_eq_add_negate hf q hy, ← hmag]
  refine add_isTruncation_of_sign_eq hf q hfx (finite_negate hf hy hfy) ?_
  rwa [sign_negate hy, Bool.eq_not]

/-! ### Magnitude subtraction -/

section
variable {f : BF} (hf : f.IsUnit) {a b : Nat}
include hf

theorem finite_of_lt_inf (ha : a < f.inf) : f.Finite a := by
  obtain ⟨hexp, -⟩ := unpack_eq hf (ha.trans (inf_lt hf))
  have hlt : f.expf a < f.expMax := hexp ▸ (Nat.div_lt_iff_lt_mul (by positivity)).mpr ha
  rw [finite_iff_classify hf, ne_eq, ne_eq, classify_eq_infinity_iff hf, classify_eq_nan_iff hf]
  exact ⟨fun h => hlt.ne h.1, fun h => hlt.ne h.1⟩

/-- `less_than` orders magnitude patterns as numbers. -/
theorem lessThan_iff_lt (ha : a < f.inf) (hb : b < f.inf) : f.lessThan a b = true ↔ a < b := by
  obtain ⟨hsa, habs, hpa⟩ := abs_lt_two (ha.trans (inf_lt hf))
  obtain ⟨hsb, hbabs, hpb⟩ := abs_lt_two (hb.trans (inf_lt hf))
  rw [lessThanIsValueOrder f hf a b hpa hpb (finite_of_lt_inf hf ha) (finite_of_lt_inf hf hb), value_of_positive hsa,
    value_of_positive hsb, mag_lt_iff hf (ha.trans (inf_lt hf)) (hb.trans (inf_lt hf))]

theorem submag_of_lt (hb : b < f.inf) (h : a < b) : f.submag a b = f.negate (f.submagOrdered b a) :=
  if_pos ((lessThan_iff_lt hf (h.trans hb) hb).mpr h)

variable (ha : a < f.inf) (hle : b ≤ a)
include ha hle

theorem submag_of_le : f.submag a b = f.submagOrdered a b :=
  if_neg fun h => hle.not_gt ((lessThan_iff_lt hf ha (hle.trans_lt ha)).mp h)

theorem unpack_exponent_mono : (f.unpack b).1 ≤ (f.unpack a).1 := by
  obtain ⟨hea, -⟩ := unpack_eq hf (ha.trans (inf_lt hf))
  obtain ⟨heb, -⟩ := unpack_eq hf ((hle.trans_lt ha).trans (inf_lt hf))
  have hexp : f.expf b ≤ f.expf a := by rw [hea, heb]; exact Nat.div_le_div_right hle
  have hemin : f.emin = 1 - f.bias := rfl
  unfold BF.unpack
  split_ifs <;> dsimp only <;> omega

theorem magnitude_mono : f.magnitude b ≤ f.magnitude a := by
  rw [← not_lt, mag_lt_iff hf (ha.trans (inf_lt hf)) ((hle.trans_lt ha).trans (inf_lt hf))]
  exact hle.not_gt

theorem alignedMantissa_le : alignedMantissa f a b ≤ (f.unpack a).2 := by
  obtain ⟨hlo, -⟩ := alignedMantissa_bounds (unpack_exponent_mono hf ha hle)
  have hmag : alignedMantissa f a b * pow2 ((f.unpack a).1 - f.m) ≤ (f.unpack a).2 * pow2 ((f.unpack a).1 - f.m) :=
    hlo.trans (magnitude_mono hf ha hle)
  exact_mod_cast le_of_mul_le_mul_right hmag (pow2_pos _)

/-- The difference of the mantissas fits the format, so `submag` gives exactly it (R186). -/
theorem submag_of_le_exact : f.submag a b < f.inf ∧
    f.magnitude (f.submag a b) =
      ((f.unpack a).2 - alignedMantissa f a b : Nat) * pow2 ((f.unpack a).1 - f.m) := by
  obtain ⟨hmin, hmax, hM, -⟩ := unpack_facts hf ha
  rw [submag_of_le hf ha hle, submagOrdered_eq]
  exact construct_of_fits hf hmin hmax ((Nat.sub_le _ _).trans_lt hM)

/-- The difference is exact for the aligned smaller operand. -/
theorem magnitude_submag : f.magnitude (f.submag a b) =
    f.magnitude a - alignedMantissa f a b * pow2 ((f.unpack a).1 - f.m) := by
  rw [(submag_of_le_exact hf ha hle).2, Nat.cast_sub (alignedMantissa_le hf ha hle), sub_mul]
  rfl

theorem magnitude_submag_of_exponent_eq (h : (f.unpack a).1 = (f.unpack b).1) :
    f.magnitude (f.submag a b) = f.magnitude a - f.magnitude b := by
  rw [magnitude_submag hf ha hle, alignedMantissa_of_exponent_eq h, h]
  rfl

/-- Aligning drops less than a unit of the larger operand from the subtrahend (R189). -/
theorem magnitude_submag_bounds :
    f.magnitude a - f.magnitude b ≤ f.magnitude (f.submag a b) ∧
    f.magnitude (f.submag a b) - (f.magnitude a - f.magnitude b) < pow2 ((f.unpack a).1 - f.m) := by
  obtain ⟨hlo, hhi⟩ := alignedMantissa_bounds (unpack_exponent_mono hf ha hle)
  rw [magnitude_submag hf ha hle]
  constructor <;> linarith

end

/-- Settles O44: the exact difference of the mantissas, the error that aligning makes, and the order that `submag` takes
its operands in. -/
theorem magnitudeSubtraction : Obligations.MagnitudeSubtraction := by
  intro f hf a b ha hle
  obtain ⟨hinf, hexact⟩ := submag_of_le_exact hf ha hle
  obtain ⟨hlower, hupper⟩ := magnitude_submag_bounds hf ha hle
  refine ⟨hinf, hexact, hlower, hupper, magnitude_submag_of_exponent_eq hf ha hle, fun hlt => ?_⟩
  rw [submag_of_lt hf ha hlt, submag_of_le hf ha hle]

end Sys2Proof
end


section
/-! The zeros of add and subtract (43_float_addsub.md R196). -/

namespace Sys2Proof

theorem negate_zero (f : BF) : f.negate 0 = 2 ^ (f.width - 1) := Nat.zero_xor _

theorem eq_abs_or_eq_negate_abs {f : BF} {x : Nat} (hx : f.Pattern x) : x = f.abs x ∨ x = f.negate (f.abs x) := by
  obtain ⟨hsign, -, hpattern⟩ := abs_lt_two (abs_pattern f x)
  have hsum := pattern_eq_sign_add_abs hx
  rw [negate_eq hpattern, hsign]
  cases hs : f.sign x
  · exact .inl (by simpa [hs] using hsum)
  · exact .inr (by simpa [hs, Nat.add_comm] using hsum)

section
variable {f : BF} (hf : f.IsUnit)
include hf

/-! ### Zero as an operand or a result of the magnitude primitives -/

theorem zero_lt_inf : 0 < f.inf := Nat.mul_pos (Nat.pos_of_ne_zero (expMax_ne hf)) (by positivity)

theorem magnitude_zero : f.magnitude 0 = 0 := by
  rw [magnitude_eq hf (by positivity), units_zero, Nat.cast_zero, zero_mul]

theorem isZero_iff_eq_zero {g : Nat} (hg : g ≤ f.inf) : f.isZero g = true ↔ g = 0 := by
  have hlt : g < 2 ^ (f.width - 1) := hg.trans_lt (inf_lt hf)
  rw [← magnitude_eq_zero_iff, ← magnitude_zero hf]
  exact ⟨mag_inj hf hlt (by positivity), fun h => h ▸ rfl⟩

theorem isZero_iff_abs_eq_zero {x : Nat} (hx : f.Finite x) : f.isZero x = true ↔ f.abs x = 0 := by
  rw [← isZero_iff_eq_zero hf (finite_abs_lt hf hx).le, ← magnitude_eq_zero_iff, ← magnitude_eq_zero_iff,
    magnitude_abs hf]

theorem isZero_negateIf {g : Nat} (hg : f.Pattern g) (s : Bool) : f.isZero (negateIf f s g) = f.isZero g := by
  cases s
  · rfl
  · exact isZero_negate hf hg

section
variable {a b : Nat} (ha : a < f.inf)
include ha

theorem addmag_zero_right : f.addmag a 0 = a := by
  have htrunc := addmag_isTruncation hf ha (zero_lt_inf hf)
  rw [magnitude_zero hf, add_zero] at htrunc
  exact isTruncation_unique htrunc (magnitude_isTruncation hf ha)

theorem addmag_zero_left : f.addmag 0 a = a := by
  rw [addmag_comm, addmag_zero_right hf ha]

theorem submag_zero_right : f.submag a 0 = a := by
  obtain ⟨hinf, -⟩ := submag_of_le_exact hf ha a.zero_le
  have haligned : alignedMantissa f a 0 = 0 := by
    simp [alignedMantissa, BF.unpack, BF.expf, BF.frac, slice]
  have hmag := magnitude_submag hf ha a.zero_le
  rw [haligned, Nat.cast_zero, zero_mul, sub_zero] at hmag
  exact mag_inj hf (hinf.trans (inf_lt hf)) (ha.trans (inf_lt hf)) hmag

theorem submag_zero_left (hne : a ≠ 0) : f.submag 0 a = f.negate a := by
  rw [submag_of_lt hf ha (Nat.pos_of_ne_zero hne), ← submag_of_le hf ha a.zero_le, submag_zero_right hf ha]

theorem submag_self : f.submag a a = 0 := by
  have hmag := magnitude_submag_of_exponent_eq hf ha le_rfl rfl
  rw [sub_self, magnitude_eq_zero_iff] at hmag
  exact (isZero_iff_eq_zero hf (submag_of_le_exact hf ha le_rfl).1.le).mp hmag

/-- A truncated sum of 0 leaves no room for an operand above 0. -/
theorem eq_zero_of_addmag_eq_zero (hb : b < f.inf) (h : f.addmag a b = 0) : a = 0 ∧ b = 0 := by
  have htrunc := addmag_isTruncation hf ha hb
  rw [h] at htrunc
  have hlt : f.magnitude a + f.magnitude b < pow2 (f.emax + 1) :=
    not_le.mp fun hover => (zero_lt_inf hf).ne (htrunc.1 hover)
  obtain ⟨-, -, hlargest⟩ := htrunc.2 hlt
  have hpa := mag_nonneg f a
  have hpb := mag_nonneg f b
  exact ⟨Nat.le_zero.mp (hlargest a ha (by linarith)), Nat.le_zero.mp (hlargest b hb (by linarith))⟩

/-- A difference is never below the true one, so a zero difference is exact cancellation. -/
theorem eq_of_isZero_submag_of_le (hle : b ≤ a) (h : f.isZero (f.submag a b) = true) : a = b := by
  obtain ⟨hlower, -⟩ := magnitude_submag_bounds hf ha hle
  rw [(magnitude_eq_zero_iff f _).mpr h, sub_nonpos] at hlower
  exact mag_inj hf (ha.trans (inf_lt hf)) ((hle.trans_lt ha).trans (inf_lt hf))
    (hlower.antisymm (magnitude_mono hf ha hle))

theorem eq_of_isZero_submag (hb : b < f.inf) (h : f.isZero (f.submag a b) = true) : a = b := by
  obtain hle | hlt := le_or_gt b a
  · exact eq_of_isZero_submag_of_le hf ha hle h
  · rw [submag_of_lt hf hb hlt, ← submag_of_le hf hb hlt.le, isZero_negate hf (submag_pattern hf b a)] at h
    exact (eq_of_isZero_submag_of_le hf hb hlt.le h).symm

/-! ### Sums of signed magnitudes -/

variable (q : Nat) (hb : b < f.inf)
include hb

theorem add_magnitudes : f.add q a b = f.addmag a b := by
  obtain ⟨hsa, habs, -⟩ := abs_lt_two (ha.trans (inf_lt hf))
  obtain ⟨hsb, hbabs, -⟩ := abs_lt_two (hb.trans (inf_lt hf))
  rw [add_of_finite q (finite_of_lt_inf hf ha) (finite_of_lt_inf hf hb), habs, hbabs, hsa, hsb]
  rfl

theorem add_negate_right : f.add q a (f.negate b) = f.submag a b := by
  obtain ⟨hsa, habs, -⟩ := abs_lt_two (ha.trans (inf_lt hf))
  obtain ⟨hsb, hbabs, hpb⟩ := abs_lt_two (hb.trans (inf_lt hf))
  rw [add_of_finite q (finite_of_lt_inf hf ha) (finite_negate hf hpb (finite_of_lt_inf hf hb)), sign_negate hpb,
    abs_negate hpb, habs, hbabs, hsa, hsb]
  rfl

theorem add_negate_both : f.add q (f.negate a) (f.negate b) = f.negate (f.addmag a b) := by
  obtain ⟨-, -, hpa⟩ := abs_lt_two (ha.trans (inf_lt hf))
  obtain ⟨-, -, hpb⟩ := abs_lt_two (hb.trans (inf_lt hf))
  rw [← add_magnitudes hf ha q hb,
    add_negate_negate_of_finite hf q hpa hpb (finite_of_lt_inf hf ha) (finite_of_lt_inf hf hb), negate_negate]

theorem add_negate_left : f.add q (f.negate a) b = f.negate (f.submag a b) := by
  obtain ⟨-, -, hpa⟩ := abs_lt_two (ha.trans (inf_lt hf))
  obtain ⟨-, -, hpb⟩ := abs_lt_two (hb.trans (inf_lt hf))
  rw [← add_negate_right hf ha q hb, add_negate_negate_of_finite hf q hpa (negate_pattern hpb)
    (finite_of_lt_inf hf ha) (finite_negate hf hpb (finite_of_lt_inf hf hb)), negate_negate, negate_negate]

end

/-! ### The rows of R196 -/

variable (q : Nat) {x y : Nat}

theorem add_opposite_magnitudes {a : Nat} (ha : a < f.inf) :
    f.add q a (f.negate a) = 0 ∧ f.add q (f.negate a) a = f.negate 0 := by
  rw [add_negate_right hf ha q ha, add_negate_left hf ha q ha, submag_self hf ha]
  exact ⟨rfl, rfl⟩

theorem add_like_zeros : f.add q 0 0 = 0 ∧ f.add q (f.negate 0) (f.negate 0) = f.negate 0 := by
  have h0 := zero_lt_inf hf
  rw [add_magnitudes hf h0 q h0, add_negate_both hf h0 q h0, addmag_zero_right hf h0]
  exact ⟨rfl, rfl⟩

/-- A zero of either sign on either side leaves a non-zero value as it is, whatever its own sign. -/
theorem add_zero_of_not_isZero (hx : f.Pattern x) (hfx : f.Finite x) (hne : f.isZero x = false) :
    f.add q x 0 = x ∧ f.add q 0 x = x ∧ f.add q x (f.negate 0) = x ∧ f.add q (f.negate 0) x = x := by
  have h0 := zero_lt_inf hf
  have ha := finite_abs_lt hf hfx
  have hne_abs : f.abs x ≠ 0 := by simpa [hne] using isZero_iff_abs_eq_zero hf hfx
  obtain hpos | hneg := eq_abs_or_eq_negate_abs hx
  · generalize f.abs x = a at *
    subst hpos
    rw [add_magnitudes hf ha q h0, add_magnitudes hf h0 q ha, add_negate_right hf ha q h0, add_negate_left hf h0 q ha,
      addmag_zero_right hf ha, addmag_zero_left hf ha, submag_zero_right hf ha, submag_zero_left hf ha hne_abs,
      negate_negate]
    exact ⟨rfl, rfl, rfl, rfl⟩
  · generalize f.abs x = a at *
    subst hneg
    rw [add_negate_left hf ha q h0, add_negate_right hf h0 q ha, add_negate_both hf ha q h0, add_negate_both hf h0 q ha,
      addmag_zero_right hf ha, addmag_zero_left hf ha, submag_zero_right hf ha, submag_zero_left hf ha hne_abs]
    exact ⟨rfl, rfl, rfl, rfl⟩

/-- Like signs give a zero for zeros alone, unlike signs for equal magnitudes alone. -/
theorem isZero_add (hfx : f.Finite x) (hfy : f.Finite y) (h : f.isZero (f.add q x y) = true) :
    (f.isZero x = true ∧ f.isZero y = true) ∨ (f.abs x = f.abs y ∧ f.sign x ≠ f.sign y) := by
  have ha := finite_abs_lt hf hfx
  have hb := finite_abs_lt hf hfy
  rw [add_of_finite q hfx hfy] at h
  split_ifs at h with hsign
  · rw [isZero_negateIf hf (addmag_pattern hf _ _),
      isZero_iff_eq_zero hf (trunc_le_inf (addmag_isTruncation hf ha hb))] at h
    rw [isZero_iff_abs_eq_zero hf hfx, isZero_iff_abs_eq_zero hf hfy]
    exact .inl (eq_zero_of_addmag_eq_zero hf ha hb h)
  · rw [isZero_negateIf hf (submag_pattern hf _ _)] at h
    exact .inr ⟨eq_of_isZero_submag hf ha hb h, hsign⟩

end

/-- Settles O38: the rows for `add`, and for `sub` those of `add` at the negation of the second operand. -/
theorem signedZerosOfAddSub : Obligations.SignedZerosOfAddSub := by
  intro f hf q negZero
  have hnegZero : negZero = f.negate 0 := (negate_zero f).symm
  rw [hnegZero]
  have hp0 : f.Pattern 0 := by unfold BF.Pattern; positivity
  obtain ⟨hpos, hneg⟩ := add_like_zeros hf q
  refine ⟨fun a ha => ?_, ⟨hpos, ?_, hneg, ?_⟩, fun x => add_zero_of_not_isZero hf q,
    fun x y _ _ => isZero_add hf q, fun x y _ hy hfx hfy h => ?_⟩
  · obtain ⟨-, -, hpa⟩ := abs_lt_two (ha.trans (inf_lt hf))
    obtain ⟨hright, hleft⟩ := add_opposite_magnitudes hf q ha
    rw [sub_eq_add_negate hf q hpa, sub_eq_add_negate hf q (negate_pattern hpa), negate_negate]
    exact ⟨hright, hright, hleft, hleft⟩
  · rw [sub_eq_add_negate hf q (negate_pattern hp0), negate_negate, hpos]
  · rw [sub_eq_add_negate hf q hp0, hneg]
  · rw [sub_eq_add_negate hf q hy] at h
    have hzero := isZero_add hf q hfx (finite_negate hf hy hfy) h
    rwa [isZero_negate hf hy, abs_negate hy, sign_negate hy, ne_eq, Bool.eq_not, not_not] at hzero

end Sys2Proof
end

section
/-! Multiply and divide case by case (44_float_muldiv.md R210 to R228): the rows of the two tables of classes. -/

namespace Sys2Proof

theorem isZero_eq_decide (f : BF) (x : Nat) : f.isZero x = decide (f.classify x = .zero) := by
  rw [Bool.eq_iff_iff]
  simp [BF.isZero, classify_eq_zero_iff]

theorem finite_and_isZero_eq_false_of_classify {f : BF} (hf : f.IsUnit) {x : Nat}
    (h : f.classify x = .denormal ∨ f.classify x = .normal) : f.Finite x ∧ f.isZero x = false := by
  rw [finite_iff_classify hf, isZero_eq_decide]
  obtain h | h := h <;> simp [h]

/-! ### Denormal and normal operands (R215, R225) -/

section
variable {f : BF} {x y : Nat} (hx : f.Finite x) (hy : f.Finite y) (hzx : f.isZero x = false) (hzy : f.isZero y = false)
include hx hy hzx hzy

theorem mul_of_finite (q : Nat) : f.mul q x y = f.withSign (f.sign x != f.sign y) (f.mulmag x y) := by
  obtain ⟨hix, hnx⟩ := hx
  obtain ⟨hiy, hny⟩ := hy
  simp [BF.mul, hix, hnx, hiy, hny, hzx, hzy]

theorem div_of_finite (dii : DivInfInf) (q : Nat) :
    f.div dii q x y = f.withSign (f.sign x != f.sign y) (f.divmag x y) := by
  obtain ⟨hix, hnx⟩ := hx
  obtain ⟨hiy, hny⟩ := hy
  simp [BF.div, hix, hnx, hiy, hny, hzx, hzy]

end

/-! ### Multiplication -/

theorem mulmag_comm (f : BF) (x y : Nat) : f.mulmag x y = f.mulmag y x := by
  simp only [BF.mulmag, Int.add_comm (f.unpack (f.abs x)).1, Nat.mul_comm (f.unpack (f.abs x)).2]

theorem mul_comm_operands (f : BF) (q x y : Nat) : f.mul q x y = f.mul q y x := by
  have hmixed : (f.isInfinity x && f.isZero y || f.isZero x && f.isInfinity y) =
      (f.isInfinity y && f.isZero x || f.isZero y && f.isInfinity x) := by
    rw [Bool.or_comm, Bool.and_comm, Bool.and_comm (f.isInfinity x)]
  simp only [BF.mul, hmixed, bne_comm (a := f.sign x), Bool.or_comm (f.isNan x), Bool.or_comm (f.isZero x),
    Bool.or_comm (f.isInfinity x), mulmag_comm f x]

/-- Settles O41: every test of `mul` is symmetric in the operands, and so is the product. -/
theorem mulCommutes : Obligations.MulCommutes := mul_comm_operands

section
variable {f : BF} (hf : f.IsUnit) (q : Nat) {x y : Nat}
include hf

theorem mul_of_infinity_zero (hx : f.classify x = .infinity) (hy : f.classify y = .zero) : f.mul q x y = q := by
  simp [BF.mul, isNan_eq_decide hf, isInfinity_eq_decide hf, isZero_eq_decide, hx, hy]

theorem mul_of_infinity_left (hx : f.classify x = .infinity) (hny : f.classify y ≠ .nan) (hzy : f.classify y ≠ .zero) :
    f.mul q x y = f.withSign (f.sign x != f.sign y) f.inf := by
  simp [BF.mul, isNan_eq_decide hf, isInfinity_eq_decide hf, isZero_eq_decide, hx, hny, hzy]

theorem mul_of_zero_left (hx : f.classify x = .zero) (hny : f.classify y ≠ .nan) (hiy : f.classify y ≠ .infinity) :
    f.mul q x y = f.withSign (f.sign x != f.sign y) 0 := by
  simp [BF.mul, isNan_eq_decide hf, isInfinity_eq_decide hf, isZero_eq_decide, hx, hny, hiy]

end

/-- Settles O39: the rows with a special `x`, the columns with a special `y` by commutativity, and the finite cell. -/
theorem mulClassTable : Obligations.MulClassTable := by
  intro f hf q x y s
  have hcomm := mul_comm_operands f q x y
  have hsign : (f.sign y != f.sign x) = s := bne_comm
  refine ⟨fun h => ?nan, ?indeterminate, ?infinity, ?zero, fun hx hy => ?finite⟩
  case nan =>
    obtain ⟨-, -, hmul, -⟩ := nanOperandGivesCanonicalNan f hf .nan q x y h
    exact hmul
  case indeterminate =>
    rintro (⟨hx, hy⟩ | ⟨hx, hy⟩)
    · exact mul_of_infinity_zero hf q hx hy
    · exact hcomm.trans (mul_of_infinity_zero hf q hy hx)
  case infinity =>
    rintro (⟨hx, hny, hzy⟩ | ⟨hy, hnx, hzx⟩)
    · exact mul_of_infinity_left hf q hx hny hzy
    · rw [hcomm, mul_of_infinity_left hf q hy hnx hzx, hsign]
  case zero =>
    rintro (⟨hx, hny, hiy⟩ | ⟨hy, hnx, hix⟩)
    · exact mul_of_zero_left hf q hx hny hiy
    · rw [hcomm, mul_of_zero_left hf q hy hnx hix, hsign]
  case finite =>
    obtain ⟨hfx, hzx⟩ := finite_and_isZero_eq_false_of_classify hf hx
    obtain ⟨hfy, hzy⟩ := finite_and_isZero_eq_false_of_classify hf hy
    exact mul_of_finite hfx hfy hzx hzy q

/-! ### Division -/

section
variable {f : BF} (hf : f.IsUnit) (dii : DivInfInf) (q : Nat) {x y : Nat}
include hf

theorem div_of_zero_zero (hx : f.classify x = .zero) (hy : f.classify y = .zero) : f.div dii q x y = q := by
  simp [BF.div, isNan_eq_decide hf, isZero_eq_decide, hx, hy]

theorem div_of_infinity_infinity (hx : f.classify x = .infinity) (hy : f.classify y = .infinity) :
    f.div dii q x y = f.divInfInf dii q (f.sign x != f.sign y) := by
  simp [BF.div, isNan_eq_decide hf, isInfinity_eq_decide hf, isZero_eq_decide, hx, hy]

theorem div_of_infinity_left (hx : f.classify x = .infinity) (hny : f.classify y ≠ .nan)
    (hiy : f.classify y ≠ .infinity) : f.div dii q x y = f.withSign (f.sign x != f.sign y) f.inf := by
  simp [BF.div, isNan_eq_decide hf, isInfinity_eq_decide hf, isZero_eq_decide, hx, hny, hiy]

theorem div_of_zero_right (hy : f.classify y = .zero) (hnx : f.classify x ≠ .nan) (hzx : f.classify x ≠ .zero) :
    f.div dii q x y = f.withSign (f.sign x != f.sign y) f.inf := by
  simp [BF.div, isNan_eq_decide hf, isInfinity_eq_decide hf, isZero_eq_decide, hy, hnx, hzx]

theorem div_of_zero_left (hx : f.classify x = .zero) (hny : f.classify y ≠ .nan) (hzy : f.classify y ≠ .zero) :
    f.div dii q x y = f.withSign (f.sign x != f.sign y) 0 := by
  simp [BF.div, isNan_eq_decide hf, isInfinity_eq_decide hf, isZero_eq_decide, hx, hny, hzy]

theorem div_of_infinity_right (hy : f.classify y = .infinity) (hnx : f.classify x ≠ .nan)
    (hix : f.classify x ≠ .infinity) : f.div dii q x y = f.withSign (f.sign x != f.sign y) 0 := by
  simp [BF.div, isNan_eq_decide hf, isInfinity_eq_decide hf, isZero_eq_decide, hy, hnx, hix]

end

/-- Settles O40: NaNs, the two pairs that name no quotient, a special operand on either side, and the finite cell. -/
theorem divClassTable : Obligations.DivClassTable := by
  intro f hf dii q x y s
  refine ⟨fun h => ?nan, div_of_zero_zero hf dii q, fun hx hy => ?infinities, div_of_infinity_left hf dii q,
    div_of_zero_right hf dii q, div_of_zero_left hf dii q, div_of_infinity_right hf dii q, fun hx hy => ?finite⟩
  case nan =>
    obtain ⟨-, -, -, hdiv⟩ := nanOperandGivesCanonicalNan f hf dii q x y h
    exact hdiv
  case infinities =>
    rw [div_of_infinity_infinity hf dii q hx hy]
    cases dii <;> rfl
  case finite =>
    obtain ⟨hfx, hzx⟩ := finite_and_isZero_eq_false_of_classify hf hx
    obtain ⟨hfy, hzy⟩ := finite_and_isZero_eq_false_of_classify hf hy
    exact div_of_finite hfx hfy hzx hzy dii q

end Sys2Proof
end

section
/-! The values of products and quotients (44_float_muldiv.md R215, R216, R225, R227). -/

namespace Sys2Proof

theorem pow2_sub (j k : Int) : pow2 (j - k) = pow2 j / pow2 k := zpow_sub₀ (by norm_num) j k

/-! ### The exact product -/

/-- The product of the mantissas is exact in the unit that `mulmag` hands to `construct` (R215). -/
theorem magnitude_mul_magnitude (f : BF) (x y : Nat) :
    f.magnitude x * f.magnitude y =
      ((f.unpack x).2 * (f.unpack y).2 : Nat) * pow2 ((f.unpack x).1 + (f.unpack y).1 - f.m - f.m) := by
  have hunit : (f.unpack x).1 + (f.unpack y).1 - f.m - f.m = (f.unpack x).1 - f.m + ((f.unpack y).1 - f.m) := by ring
  rw [hunit, pow2_add, Nat.cast_mul]
  exact mul_mul_mul_comm ..

theorem mulmag_isTruncation {f : BF} (hf : f.IsUnit) (x y : Nat) :
    f.IsTruncation (f.magnitude x * f.magnitude y) (f.mulmag x y) := by
  rw [magnitude_mul_magnitude, BF.mulmag, unpack_abs hf, unpack_abs hf]
  exact construct_isTruncation hf _ _

/-- Settles O45: `construct` truncates the exact product. -/
theorem mulTruncatesExactProduct : Obligations.MulTruncatesExactProduct := by
  intro f hf q x y _ _ hx hy hzx hzy
  exact ⟨_, mul_of_finite hx hy hzx hzy q, mulmag_isTruncation hf x y⟩

/-! ### The integer quotient -/

/-- The integer quotient that `divmag` hands to `construct`, without the signs (R225); a proof tool, no definition of the
model. -/
def integerQuotient (f : BF) (x y : Nat) : Nat := (f.unpack x).2 * 2 ^ f.m / (f.unpack y).2

theorem divmag_eq {f : BF} (hf : f.IsUnit) (x y : Nat) :
    f.divmag x y = f.construct ((f.unpack x).1 - (f.unpack y).1) (integerQuotient f x y) := by
  rw [BF.divmag, unpack_abs hf, unpack_abs hf]
  rfl

theorem magnitude_div_magnitude (f : BF) (x y : Nat) :
    f.magnitude x / f.magnitude y =
      ((f.unpack x).2 * 2 ^ f.m : Nat) / ((f.unpack y).2 : Nat) * pow2 ((f.unpack x).1 - (f.unpack y).1 - f.m) := by
  have hunit : pow2 ((f.unpack x).1 - f.m) / pow2 ((f.unpack y).1 - f.m) =
      (2 ^ f.m : Nat) * pow2 ((f.unpack x).1 - (f.unpack y).1 - f.m) := by
    rw [← pow2_sub, ← pow2_nat, ← pow2_add]
    ring_nf
  rw [BF.magnitude, BF.magnitude, mul_div_mul_comm, hunit, Nat.cast_mul]
  ring

/-- The integer quotient rounds the true one down to a multiple of its unit (R225). -/
theorem integerQuotient_bounds (f : BF) (x y : Nat) :
    integerQuotient f x y * pow2 ((f.unpack x).1 - (f.unpack y).1 - f.m) ≤ f.magnitude x / f.magnitude y ∧
    f.magnitude x / f.magnitude y <
      (integerQuotient f x y + 1) * pow2 ((f.unpack x).1 - (f.unpack y).1 - f.m) := by
  have hunit := pow2_pos ((f.unpack x).1 - (f.unpack y).1 - f.m)
  rw [magnitude_div_magnitude, integerQuotient, ← Nat.floor_div_eq_div (K := ℚ)]
  exact ⟨mul_le_mul_of_nonneg_right (Nat.floor_le (by positivity)) hunit.le,
    mul_lt_mul_of_pos_right (Nat.lt_floor_add_one _) hunit⟩

/-! ### Truncation of a number that is not above the true one -/

/-- The truncation of a number is `INF` only when the number is beyond the format. -/
theorem le_of_isTruncation_inf {f : BF} {v : ℚ} (h : f.IsTruncation v f.inf) : pow2 (f.emax + 1) ≤ v := by
  by_contra! hlt
  exact (h.2 hlt).1.false

theorem magnitude_le_of_isTruncation {f : BF} {v : ℚ} {g : Nat} (h : f.IsTruncation v g) (hg : g ≠ f.inf) :
    f.magnitude g ≤ v := by
  obtain ⟨-, hle, -⟩ := h.2 (not_le.mp fun hover => hg (h.1 hover))
  exact hle

/-- `isTruncation_of_floor` for a floor of at least `m + 1` bits, whatever the exponent: above `emax` the floor is already
beyond the format. -/
theorem isTruncation_of_wide_floor {f : BF} (hf : f.IsUnit) {E : Int} {k g : Nat} {v : ℚ} (hk : 2 ^ f.m ≤ k)
    (hlo : k * pow2 (E - f.m) ≤ v) (hhi : v < (k + 1) * pow2 (E - f.m))
    (hg : f.IsTruncation (k * pow2 (E - f.m)) g) : f.IsTruncation v g := by
  obtain hmax | hover := le_or_gt E f.emax
  · exact isTruncation_of_floor hf hlo hhi (.inr hk) hmax hg
  · have hfloor : pow2 (f.emax + 1) ≤ k * pow2 (E - f.m) := by
      calc pow2 (f.emax + 1) ≤ pow2 E := pow2_le hover
        _ = (2 ^ f.m : Nat) * pow2 (E - f.m) := by rw [← pow2_nat, ← pow2_add]; ring_nf
        _ ≤ k * pow2 (E - f.m) := mul_le_mul_of_nonneg_right (Nat.cast_le.mpr hk) (pow2_pos _).le
    rw [hg.1 hfloor]
    exact inf_isTruncation (hfloor.trans hlo)

/-- Settles O46: `construct` truncates the floored quotient, which is not above the true one, and the floor is not seen
when it has `m + 1` bits. -/
theorem divNeverAboveQuotient : Obligations.DivNeverAboveQuotient := by
  intro f hf dii q x y _ _ hx hy hzx hzy
  obtain ⟨hlo, hhi⟩ := integerQuotient_bounds f x y
  have htrunc := construct_isTruncation hf ((f.unpack x).1 - (f.unpack y).1) (integerQuotient f x y)
  rw [← divmag_eq hf] at htrunc
  refine ⟨_, div_of_finite hx hy hzx hzy dii q, trunc_le_inf htrunc, fun hinf => ?_, fun hne => ?_, fun hbits => ?_⟩
  · rw [hinf] at htrunc
    exact (le_of_isTruncation_inf htrunc).trans hlo
  · exact (magnitude_le_of_isTruncation htrunc hne).trans hlo
  · exact isTruncation_of_wide_floor hf hbits hlo hhi htrunc

end Sys2Proof
end

section
/-! What the four multiply and divide operations answer (44_float_muldiv.md R230 to R233). -/

namespace Sys2Proof.Machine

/-- Settles O54: the operands fit their format, so the shared shape of a floating request answers, whatever the divisor
is. -/
theorem floatMulDivResults : Obligations.FloatMulDivResults := by
  intro s req rest hreq
  exact ⟨fun hx hy => ⟨floatBinary_half_fits hreq hx hy _, floatBinary_half_fits hreq hx hy _⟩,
    floatBinary_single hreq _, floatBinary_single hreq _⟩

end Sys2Proof.Machine
end

section
/-! The hexadecimal text of a floating pattern (45_float_render.md): its form by class, the number a finite text shows,
and that the text of a pattern that is no NaN fixes the pattern. -/

namespace Sys2Proof

/-! ### The forms by class (R241 to R249) -/

/-- The text of a pattern that is no NaN without its sign character; a proof tool, no definition of the model, tied to
it by `render_eq_minus_append`. -/
def BF.unsignedText (f : BF) (x : Nat) : List Byte :=
  if f.isInfinity x then ascii ['i', 'n', 'f']
  else if f.isZero x then f.zeroText
  else if f.isDenormal x then f.finiteText (f.denormalParts x)
  else f.finiteText (f.normalParts x)

theorem render_eq_minus_append {f : BF} {x : Nat} (hnan : f.isNan x = false) :
    f.render x = (if f.sign x then ascii ['-'] else []) ++ f.unsignedText x := by
  rw [BF.render, BF.unsignedText, if_neg (ne_true_of_eq_false hnan), apply_ite (_ ++ ·), apply_ite (_ ++ ·),
    apply_ite (_ ++ ·)]

section
variable {f : BF} (hf : f.IsUnit) {x : Nat}
include hf

theorem render_of_nan (h : f.classify x = .nan) : f.render x = ascii ['n', 'a', 'n'] := by
  simp [BF.render, isNan_eq_decide hf, h]

theorem render_of_infinity (h : f.classify x = .infinity) :
    f.render x = if f.sign x then ascii ['-', 'i', 'n', 'f'] else ascii ['i', 'n', 'f'] := by
  have hnan : f.isNan x = false := by simp [isNan_eq_decide hf, h]
  have htext : f.unsignedText x = ascii ['i', 'n', 'f'] := by simp [BF.unsignedText, isInfinity_eq_decide hf, h]
  rw [render_eq_minus_append hnan, htext]
  split_ifs <;> rfl

theorem render_of_zero (h : f.classify x = .zero) :
    f.render x = (if f.sign x then ascii ['-'] else []) ++ f.zeroText := by
  have hnan : f.isNan x = false := by simp [isNan_eq_decide hf, h]
  have htext : f.unsignedText x = f.zeroText := by
    simp [BF.unsignedText, isInfinity_eq_decide hf, isZero_eq_decide, h]
  rw [render_eq_minus_append hnan, htext]

end

/-- Settles O48: the forms of the three classes, at the number of fraction digits of each unit. -/
theorem renderSpecialValues : Obligations.RenderSpecialValues := by
  intro x
  have hhalf : half.IsUnit := .inl rfl
  have hsingle : single.IsUnit := .inr rfl
  exact ⟨render_of_nan hhalf, render_of_nan hsingle, render_of_infinity hhalf, render_of_infinity hsingle,
    render_of_zero hhalf, render_of_zero hsingle⟩

/-! ### The number that a finite text shows (R245 to R247) -/

/-- Shifted to the implicit-bit position, the mantissa of a denormal value has its highest bit there, and the displayed
digits are the rest (R246). -/
theorem two_pow_add_denormalParts {f : BF} (hf : f.IsUnit) {x : Nat} (h : f.frac x ≠ 0) :
    2 ^ f.m + (f.denormalParts x).1 = f.frac x * 2 ^ (f.m - msb (f.frac x)) := by
  obtain ⟨hlo, hhi⟩ := msb_spec h
  have hmsb : msb (f.frac x) < f.m := (Nat.pow_lt_pow_iff_right (by decide)).mp (hlo.trans_lt (frac_lt hf x))
  have hpow : 2 ^ f.m = 2 ^ msb (f.frac x) * 2 ^ (f.m - msb (f.frac x)) := by
    rw [← pow_add, Nat.add_sub_cancel' hmsb.le]
  have hge : 2 ^ f.m ≤ f.frac x * 2 ^ (f.m - msb (f.frac x)) := by
    rw [hpow]
    exact Nat.mul_le_mul_right _ hlo
  have hlt : f.frac x * 2 ^ (f.m - msb (f.frac x)) < 2 ^ f.m * 2 := by
    rw [hpow, mul_right_comm, ← pow_succ]
    exact Nat.mul_lt_mul_of_pos_right hhi (Nat.two_pow_pos _)
  rw [BF.denormalParts, Nat.mod_eq_sub_mod hge, Nat.mod_eq_of_lt (by omega)]
  omega

theorem magnitude_of_denormal {f : BF} (hf : f.IsUnit) {x : Nat} (hexp : f.expf x = 0) (hfrac : f.frac x ≠ 0) :
    f.magnitude x = (2 ^ f.m + (f.denormalParts x).1 : Nat) * pow2 ((f.denormalParts x).2 - f.m) := by
  rw [two_pow_add_denormalParts hf hfrac, Nat.cast_mul, ← pow2_nat, mul_assoc, ← pow2_add, BF.magnitude, BF.unpack,
    if_pos hexp, BF.denormalParts]
  congr 2
  dsimp only
  omega

theorem magnitude_of_normal (f : BF) {x : Nat} (hexp : f.expf x ≠ 0) :
    f.magnitude x = (2 ^ f.m + (f.normalParts x).1 : Nat) * pow2 ((f.normalParts x).2 - f.m) := by
  rw [BF.magnitude, BF.unpack, if_neg hexp, BF.normalParts]

/-- A finite text shows a mantissa of `m` bits and an exponent that make up the magnitude. -/
theorem exists_unsignedText_eq {f : BF} (hf : f.IsUnit) {x : Nat} (hinf : f.isInfinity x = false)
    (hzero : f.isZero x = false) : ∃ p : Nat × Int, p.1 < 2 ^ f.m ∧
      f.magnitude x = (2 ^ f.m + p.1 : Nat) * pow2 (p.2 - f.m) ∧ f.unsignedText x = f.finiteText p := by
  by_cases hexp : f.expf x = 0
  · have hfrac : f.frac x ≠ 0 := by simpa [BF.isZero, hexp] using hzero
    have hden : f.isDenormal x = true := by simp [BF.isDenormal, hexp, hfrac]
    exact ⟨f.denormalParts x, Nat.mod_lt _ (Nat.two_pow_pos _), magnitude_of_denormal hf hexp hfrac,
      by simp [BF.unsignedText, hinf, hzero, hden]⟩
  · have hden : f.isDenormal x = false := by simp [BF.isDenormal, hexp]
    exact ⟨f.normalParts x, frac_lt hf x, magnitude_of_normal f hexp, by simp [BF.unsignedText, hinf, hzero, hden]⟩

/-- The aligned mantissa fills the hexadecimal digits (R244). -/
theorem two_pow_mul_hexShift {f : BF} (hf : f.IsUnit) : 2 ^ f.m * 2 ^ f.hexShift = 16 ^ f.hexDigits := by
  obtain rfl | rfl := hf <;> decide

theorem alignMantissa_lt {f : BF} (hf : f.IsUnit) {fr : Nat} (h : fr < 2 ^ f.m) :
    f.alignMantissa fr < 16 ^ f.hexDigits := by
  rw [← two_pow_mul_hexShift hf]
  exact Nat.mul_lt_mul_of_pos_right h (Nat.two_pow_pos _)

/-- The aligned mantissa is the same fraction of its digits as the mantissa is of its bits. -/
theorem alignMantissa_div {f : BF} (hf : f.IsUnit) (fr : Nat) :
    (f.alignMantissa fr : ℚ) / 16 ^ f.hexDigits = fr / 2 ^ f.m := by
  have hpow : (16 : ℚ) ^ f.hexDigits = 2 ^ f.m * 2 ^ f.hexShift := by exact_mod_cast (two_pow_mul_hexShift hf).symm
  rw [hpow, BF.alignMantissa, Nat.cast_mul, Nat.cast_pow, Nat.cast_ofNat, mul_div_mul_right _ _ (by positivity)]

/-- Settles O49: the aligned mantissa and the displayed exponent. -/
theorem renderDenotesValue : Obligations.RenderDenotesValue := by
  intro f hf x _ hx hzero
  obtain ⟨hinf, hnan⟩ := hx
  obtain ⟨p, hlt, hmag, htext⟩ := exists_unsignedText_eq hf hinf hzero
  refine ⟨f.alignMantissa p.1, p.2, alignMantissa_lt hf hlt, ?_, ?_⟩
  · have hexp : pow2 p.2 = 2 ^ f.m * pow2 (p.2 - f.m) := by
      rw [← Nat.cast_two, ← Nat.cast_pow, ← pow2_nat, ← pow2_add, add_sub_cancel]
    rw [hmag, alignMantissa_div hf, hexp]
    push_cast
    field_simp
  · simp only [render_eq_minus_append hnan, htext, BF.finiteText, exponentText, List.append_assoc]

/-! ### The text fixes the pattern (R253) -/

theorem dec_injective : Function.Injective dec := Function.LeftInverse.injective readDecimal_dec

theorem exponentText_injective : Function.Injective exponentText := by
  intro d e h
  obtain ⟨hsign, hdec⟩ := List.append_inj h (by split_ifs <;> rfl)
  have habs := dec_injective hdec
  have hiff : 0 ≤ d ↔ 0 ≤ e := by
    split_ifs at hsign with hd he he
    · exact iff_of_true hd he
    · exact absurd hsign (by decide)
    · exact absurd hsign (by decide)
    · exact iff_of_false hd he
  omega

theorem finiteText_injOn {f : BF} (hf : f.IsUnit) {p q : Nat × Int} (hp : p.1 < 2 ^ f.m) (hq : q.1 < 2 ^ f.m)
    (h : f.finiteText p = f.finiteText q) : p = q := by
  obtain ⟨hfront, hexp⟩ := List.append_inj h (by simp [hexDigitsOf_length])
  have hdigits := List.append_cancel_left (List.append_cancel_right hfront)
  have halign : f.alignMantissa p.1 = f.alignMantissa q.1 := by
    rw [← readHex_hexDigitsOf (alignMantissa_lt hf hp), hdigits, readHex_hexDigitsOf (alignMantissa_lt hf hq)]
  exact Prod.ext (Nat.eq_of_mul_eq_mul_right (Nat.two_pow_pos _) halign) (exponentText_injective hexp)

/-- A leading minus sign stands apart from a text that begins otherwise. -/
theorem optional_minus_append_inj {a b : Bool} {t u : List Byte} (ht : t.head? ≠ some (asciiCode '-'))
    (hu : u.head? ≠ some (asciiCode '-'))
    (h : (if a then ascii ['-'] else []) ++ t = (if b then ascii ['-'] else []) ++ u) : a = b ∧ t = u := by
  cases a <;> cases b
  case false.false => exact ⟨rfl, h⟩
  case true.true => exact ⟨rfl, List.append_cancel_left h⟩
  case true.false => exact absurd (congrArg List.head? h).symm hu
  case false.true => exact absurd (congrArg List.head? h) ht

/-- The first three bytes after the sign tell infinities, zeros and the other finite values apart. -/
theorem take_three_unsignedText (f : BF) (x : Nat) :
    (f.unsignedText x).take 3 = if f.isInfinity x then ascii ['i', 'n', 'f'] else
      if f.isZero x then ascii ['0', 'x', '0'] else ascii ['0', 'x', '1'] := by
  unfold BF.unsignedText
  split_ifs <;> rfl

theorem head_unsignedText_ne_minus (f : BF) (x : Nat) : (f.unsignedText x).head? ≠ some (asciiCode '-') := by
  have hhead : (f.unsignedText x).head? = ((f.unsignedText x).take 3).head? := by simp [List.head?_take]
  rw [hhead, take_three_unsignedText]
  split_ifs <;> decide

theorem isInfinity_eq_decide_text (f : BF) (x : Nat) :
    f.isInfinity x = decide ((f.unsignedText x).take 3 = ascii ['i', 'n', 'f']) := by
  rw [take_three_unsignedText]
  split_ifs with hinf
  · exact hinf
  · exact Bool.eq_false_iff.mpr hinf
  · exact Bool.eq_false_iff.mpr hinf

section
variable {f : BF} (hf : f.IsUnit)
include hf

theorem isZero_eq_decide_text (x : Nat) :
    f.isZero x = decide ((f.unsignedText x).take 3 = ascii ['0', 'x', '0']) := by
  rw [take_three_unsignedText]
  split_ifs with hinf hzero
  · rw [isInfinity_eq_decide hf, decide_eq_true_eq] at hinf
    rw [isZero_eq_decide, hinf]
    rfl
  · exact hzero
  · exact Bool.eq_false_iff.mpr hzero

theorem abs_of_isInfinity {x : Nat} (h : f.isInfinity x = true) : f.abs x = f.inf := by
  rw [isInfinity_eq_decide hf, decide_eq_true_eq, classify_eq_infinity_iff hf] at h
  obtain ⟨hexp, hfrac⟩ := h
  rw [abs_eq_fields hf, hexp, hfrac, BF.inf, Nat.add_zero]

theorem abs_of_isZero {x : Nat} (h : f.isZero x = true) : f.abs x = 0 := by
  rw [isZero_eq_decide, decide_eq_true_eq, classify_eq_zero_iff] at h
  obtain ⟨hexp, hfrac⟩ := h
  rw [abs_eq_fields hf, hexp, hfrac, Nat.zero_mul]

/-- Finite texts that are equal show one number, and it has one magnitude pattern. -/
theorem abs_eq_of_unsignedText_eq {x y : Nat} (htext : f.unsignedText x = f.unsignedText y) : f.abs x = f.abs y := by
  have hinf : f.isInfinity x = f.isInfinity y := by
    rw [isInfinity_eq_decide_text, isInfinity_eq_decide_text, htext]
  have hzero : f.isZero x = f.isZero y := by rw [isZero_eq_decide_text hf, isZero_eq_decide_text hf, htext]
  cases hxinf : f.isInfinity x with
  | true => rw [abs_of_isInfinity hf hxinf, abs_of_isInfinity hf (hinf ▸ hxinf)]
  | false =>
    cases hxzero : f.isZero x with
    | true => rw [abs_of_isZero hf hxzero, abs_of_isZero hf (hzero ▸ hxzero)]
    | false =>
      obtain ⟨p, hp, hxmag, hxtext⟩ := exists_unsignedText_eq hf hxinf hxzero
      obtain ⟨q, hq, hymag, hytext⟩ := exists_unsignedText_eq hf (hinf ▸ hxinf) (hzero ▸ hxzero)
      have hpq : p = q := finiteText_injOn hf hp hq (by rw [← hxtext, ← hytext, htext])
      refine mag_inj hf (abs_pattern f x) (abs_pattern f y) ?_
      rw [magnitude_abs hf, magnitude_abs hf, hxmag, hymag, hpq]

end

/-- Settles O50: the sign is read off the text, and the rest of it fixes the magnitude pattern. -/
theorem renderInjective : Obligations.RenderInjective := by
  refine fun f hf => ⟨fun x y hx hy hxnan hynan htext => ?_, fun x => render_of_nan hf⟩
  rw [render_eq_minus_append (by simp [isNan_eq_decide hf, hxnan]),
    render_eq_minus_append (by simp [isNan_eq_decide hf, hynan])] at htext
  obtain ⟨hsign, hrest⟩ :=
    optional_minus_append_inj (head_unsignedText_ne_minus f x) (head_unsignedText_ne_minus f y) htext
  rw [pattern_eq_sign_add_abs hx, pattern_eq_sign_add_abs hy, hsign, abs_eq_of_unsignedText_eq hf hrest]

/-! ### Lengths (R250) -/

/-- Settles O51: the bounds are those of the texts of each unit; the rule's texts are evaluated. -/
theorem renderLength : Obligations.RenderLength := by
  refine ⟨fun x _ => ?_, fun x _ => ?_, by decide⟩
  · have htext := render_half_textBetween x
    exact ⟨htext.lower, htext.upper⟩
  · have htext := render_single_textBetween x
    exact ⟨htext.lower, htext.upper⟩

end Sys2Proof
end

section
/-! What the two identity operations answer (45_float_render.md R255, R256). -/

namespace Sys2Proof.Machine

theorem floatUnary_single {s : State} {req : Request} {rest : List Request} (hreq : s.requests = req :: rest)
    (op : Nat → Nat) : floatUnary single op s = .next (s.answered rest (floatResponse single (op req.x.toNat))) := by
  rw [floatUnary_cons hreq, wideFor_single]
  rfl

/-- The response to a port word passed through holds that word. -/
theorem floatResponse_toNat (f : BF) (w : Word) :
    floatResponse f w.toNat = .ok w (classCode (f.classify w.toNat)) (f.render w.toNat) := by
  rw [floatResponse, BitVec.ofNat_toNat, BitVec.setWidth_eq]

/-- Settles O52: the shared shape of a floating request of one operand answers, and its operation is the identity. -/
theorem floatIdResults : Obligations.FloatIdResults := by
  refine fun s req rest hreq => ⟨fun hx => ?_, ?_⟩
  · rw [exec_hId, floatUnary_half_fits hreq hx, floatResponse_toNat]
  · rw [exec_sId, floatUnary_single hreq, floatResponse_toNat]

end Sys2Proof.Machine
end

section
/-! The complete list of failures (60_exceptions.md R270 to R275). -/

namespace Sys2Proof.Machine

section
variable {s : State} {req : Request} {rest : List Request} (hreq : s.requests = req :: rest) {f : Failure}
include hreq

/-- An FX request fails for its pair, or in the legal range when its operation fails. -/
theorem fxRequest_eq_fail_iff {a b : Nat} {op : Nat → Nat → Except Failure Nat} :
    fxRequest a b op s = .next (s.answered rest (.fail f)) ↔
      (f = .formatOverflow ∧ 32 < a + b) ∨
      (1 ≤ a ∧ 1 ≤ b ∧ a + b ≤ 32 ∧ op (fxOperand (a + b) req.x) (fxOperand (a + b) req.y) = .error f) := by
  rw [fxRequest_cons hreq]
  split_ifs with hov h0
  · simp [answered_inj, hov, hov.not_ge, eq_comm]
  · have hpair : ¬ (1 ≤ a ∧ 1 ≤ b) := by omega
    simp [hov, ← and_assoc, hpair]
  · have hlegal : 1 ≤ a ∧ 1 ≤ b ∧ a + b ≤ 32 := by omega
    cases op (fxOperand (a + b) req.x) (fxOperand (a + b) req.y) <;>
      simp [answered_inj, hov, hlegal, fxResponse]

/-- An FX request whose operation cannot fail fails for its pair alone. -/
theorem fxRequest_ok_eq_fail {a b : Nat} {g : Nat → Nat → Nat}
    (h : fxRequest a b (fun x y => .ok (g x y)) s = .next (s.answered rest (.fail f))) :
    f = .formatOverflow ∧ 32 < a + b :=
  ((fxRequest_eq_fail_iff hreq).mp h).resolve_right fun ⟨_, _, _, herr⟩ => nomatch herr

theorem floatUnary_ne_fail {bf : BF} {op : Nat → Nat} : floatUnary bf op s ≠ .next (s.answered rest (.fail f)) := by
  rw [floatUnary_cons hreq]
  split_ifs <;> simp [answered_inj, floatResponse]

theorem floatBinary_ne_fail {bf : BF} {op : Nat → Nat → Nat} :
    floatBinary bf op s ≠ .next (s.answered rest (.fail f)) := by
  rw [floatBinary_cons hreq]
  split_ifs <;> simp [answered_inj, floatResponse]

/-- `FX.DIV` fails for its pair, or in the legal range for a divisor of 0. -/
theorem exec_fxDiv_eq_fail {a b : Nat} (h : exec (.fxDiv a b) s = .next (s.answered rest (.fail f))) :
    (f = .formatOverflow ∧ 32 < a + b) ∨
      (f = .divByZero ∧ 1 ≤ a ∧ 1 ≤ b ∧ a + b ≤ 32 ∧ req.y.toNat % 2 ^ (a + b) = 0) := by
  rw [exec_fxDiv, fxRequest_eq_fail_iff hreq, fxOperand_eq, fxOperand_eq] at h
  refine h.imp_right fun ⟨ha, hb, hab, herr⟩ => ?_
  split_ifs at herr with hzero
  exact ⟨(Except.error.inj herr).symm, ha, hb, hab, hzero⟩

/-- Every operation that fails is one of FX: a floating response is never a failure. -/
theorem exec_eq_fail {i : Instr} (h : exec i s = .next (s.answered rest (.fail f))) :
    (f = .formatOverflow ∧ ∃ a b, 32 < a + b ∧ i ∈ fxOperations a b) ∨
    (f = .divByZero ∧ ∃ a b, 1 ≤ a ∧ 1 ≤ b ∧ a + b ≤ 32 ∧ i = .fxDiv a b ∧ req.y.toNat % 2 ^ (a + b) = 0) := by
  have overflow {a b : Nat} (hi : i ∈ fxOperations a b) (hf : f = .formatOverflow ∧ 32 < a + b) :
      f = .formatOverflow ∧ ∃ a b, 32 < a + b ∧ i ∈ fxOperations a b := ⟨hf.1, a, b, hf.2, hi⟩
  cases i with
  | fxId a b => exact .inl (overflow (by simp [fxOperations]) (fxRequest_ok_eq_fail hreq (exec_fxId a b s ▸ h)))
  | fxAdd a b => exact .inl (overflow (by simp [fxOperations]) (fxRequest_ok_eq_fail hreq (exec_fxAdd a b s ▸ h)))
  | fxSub a b => exact .inl (overflow (by simp [fxOperations]) (fxRequest_ok_eq_fail hreq (exec_fxSub a b s ▸ h)))
  | fxMul a b => exact .inl (overflow (by simp [fxOperations]) (fxRequest_ok_eq_fail hreq (exec_fxMul a b s ▸ h)))
  | fxDiv a b =>
    exact (exec_fxDiv_eq_fail hreq h).imp (overflow (by simp [fxOperations]))
      fun ⟨hf, ha, hb, hab, hzero⟩ => ⟨hf, a, b, ha, hb, hab, rfl, hzero⟩
  | hId => exact (floatUnary_ne_fail hreq (exec_hId s ▸ h)).elim
  | hAdd => exact (floatBinary_ne_fail hreq (exec_hAdd s ▸ h)).elim
  | hSub => exact (floatBinary_ne_fail hreq (exec_hSub s ▸ h)).elim
  | hMul => exact (floatBinary_ne_fail hreq (exec_hMul s ▸ h)).elim
  | hDiv => exact (floatBinary_ne_fail hreq (exec_hDiv s ▸ h)).elim
  | sId => exact (floatUnary_ne_fail hreq (exec_sId s ▸ h)).elim
  | sAdd => exact (floatBinary_ne_fail hreq (exec_sAdd s ▸ h)).elim
  | sSub => exact (floatBinary_ne_fail hreq (exec_sSub s ▸ h)).elim
  | sMul => exact (floatBinary_ne_fail hreq (exec_sMul s ▸ h)).elim
  | sDiv => exact (floatBinary_ne_fail hreq (exec_sDiv s ▸ h)).elim

end

/-- Settles O21: `exec_eq_fail` bounds the failures; the pair makes every FX request fail, and a divisor of 0 is a clause
of what `FX.DIV` answers. -/
theorem failuresAreTheTwoKinds : Obligations.FailuresAreTheTwoKinds := by
  refine ⟨⟨rfl, rfl⟩, fun i s req rest f hreq => ⟨exec_eq_fail hreq, ?_⟩⟩
  rintro (⟨rfl, a, b, hov, hi⟩ | ⟨rfl, a, b, ha, hb, hab, rfl, hzero⟩)
  · obtain ⟨op, hexec⟩ := exec_of_mem_fxOperations hi s
    rw [hexec, fxRequest_overflow hreq hov]
  · obtain ⟨-, hdiv, -⟩ := fxDivResult a b s req rest hreq
    exact hdiv ha hb hab hzero

end Sys2Proof.Machine
end

section
/-! A run maps its requests to responses, one each and in order (20_memory.md R45, 70_reset_and_hazards.md R307), from the
empty lists that reset leaves (R300, R301) to the step that finds no request. -/

namespace Sys2Proof.Machine

/-- The answer to a request is the same whatever requests stand behind it and whatever responses were given before. -/
theorem Answers.step_eq {s : State} {q : Request} {r : Response} {rest : List Request} (h : Answers s.params q r)
    (hreq : s.requests = q :: rest) : step s = .next (s.answered rest r) :=
  have ⟨hanswer, _⟩ := responseDependsOnRequestAlone ⟨s.params, [q], []⟩ s q [] rest rfl hreq rfl
  (hanswer r).mp h

theorem exists_answers (p : Params) {q : Request} (hq : ¬ q.OutsideContract) : ∃ r, Answers p q r := by
  obtain ⟨-, hsafe, -⟩ := refusedExactlyOutsideContract ⟨p, [q], []⟩ q [] rfl
  obtain ⟨t, ht⟩ := hsafe hq
  obtain ⟨r, hr⟩ | ⟨e, he⟩ := step_fixedByRequest p q
  · exact ⟨r, hr _ [] rfl rfl⟩
  · rw [he _ [] rfl rfl] at ht
    cases ht

theorem exists_forall₂_answers (p : Params) (qs : List Request) (hqs : ∀ q ∈ qs, ¬ q.OutsideContract) :
    ∃ rs, List.Forall₂ (Answers p) qs rs := by
  induction qs with
  | nil => exact ⟨[], .nil⟩
  | cons q qs ih =>
    rw [List.forall_mem_cons] at hqs
    obtain ⟨hq, hrest⟩ := hqs
    obtain ⟨r, hr⟩ := exists_answers p hq
    obtain ⟨rs, hrs⟩ := ih hrest
    exact ⟨r :: rs, .cons hr hrs⟩

/-- A run over requests that have answers appends the answers; `k` more steps then start with no request left. -/
theorem run_of_forall₂_answers {p : Params} {qs : List Request} {rs : List Response}
    (h : List.Forall₂ (Answers p) qs rs) (given : List Response) (k : Nat) :
    Host.Core.run core (qs.length + k) (State.mk p qs given) =
      Host.Core.run core k (State.mk p [] (given ++ rs)) := by
  induction h generalizing given with
  | nil => rw [List.length_nil, Nat.zero_add, List.append_nil]
  | @cons q r qs rs hr _ ih =>
    have hstep : step ⟨p, q :: qs, given⟩ = .next ⟨p, qs, given ++ [r]⟩ := Answers.step_eq hr rfl
    rw [List.length_cons, Nat.add_right_comm, run_next hstep, ih, List.append_assoc, List.singleton_append]

/-- Settles O14: the run over the answers ends with no request left, where the next step is the fault. -/
theorem runMapsRequestsToResponses : Obligations.RunMapsRequestsToResponses := by
  intro s hs
  obtain ⟨rs, hrs⟩ := exists_forall₂_answers s.params s.requests hs
  have hrun := run_of_forall₂_answers hrs s.responses
  exact ⟨rs, hrun 0, hrs, (hrun 1).trans (run_nil rfl 0)⟩

/-- Settles O8: a step is an operation on the oldest request, and there is none. -/
theorem stepEndsWithoutRequest : Obligations.StepEndsWithoutRequest :=
  fun _ hnone => withRequest_nil hnone _

theorem defaultParams_legal : ParamsLegal defaultParams = true := by decide

/-- Settles O9: the default canonical NaNs are NaNs, and there is no response that could be illegal. -/
theorem resetMeetsInvariant : Obligations.ResetMeetsInvariant := by
  refine ⟨⟨defaultParams_legal, fun r hr => ?_⟩, reset_requests, reset_responses⟩
  rw [reset_responses] at hr
  exact absurd hr List.not_mem_nil

end Sys2Proof.Machine
end
